-- ==== Sys2Proof/Word.lean ====
section
/-! DEFINITION. The word type of `cpu_core` (spec 00_scope.md rules R7 and R8): every register value,
memory cell, operand byte and address is one unsigned byte. -/

namespace Sys2Proof

/-- A byte: 8 bits, bit 0 the least significant (R7). Addition, subtraction and multiplication of bytes
wrap modulo 256, which is `trunc8` of the exact result (R8): `a + b` is the spec's `a +8 b`. -/
abbrev Byte := BitVec 8

/-- The flags field is 3 bits wide (10_state.md rule R27). -/
abbrev FlagBits := BitVec 3

/-- `trunc8(v) = v mod 256` (R8). -/
def trunc8 (v : Nat) : Byte := BitVec.ofNat 8 v

end Sys2Proof
end

