-- ==== Sys2Proof/Config.lean ====
section
/-! DEFINITION. The implementation parameters of 00_scope.md rule R5, at the values the spec gives them,
and the names of the 13 instructions that the parameter `OPC` maps to byte values (the map itself,
30_encoding.md rule R74, is `Sys2Proof.opc` in Decode.lean). The spec leaves no value free: it says of
every open point which value it takes (92_eei_decisions.md), so no constant here is opaque. -/

namespace Sys2Proof

/-- The 13 mnemonics, in the order of the table of 30_encoding.md rule R74. -/
inductive Mnemonic where
  | ldi | prn | mul | add | push | pop | call | ret | cmp | jmp | jeq | jne | hlt
  deriving DecidableEq, Repr

/-- Every mnemonic once. -/
def Mnemonic.all : List Mnemonic :=
  [.ldi, .prn, .mul, .add, .push, .pop, .call, .ret, .cmp, .jmp, .jeq, .jne, .hlt]

/-- `NREG` (R5): eight general registers. -/
abbrev Config.nreg : Nat := 8

/-- `MEMSIZE` (R5): 256 memory cells, addresses 0x00 to 0xFF. -/
abbrev Config.memSize : Nat := 256

/-- `SP_RESET` (R5, 10_state.md rule R30). -/
def Config.spReset : Byte := 0xF4

/-- `PC_RESET` (R5). DESIGN CHOICE of the spec, decision D3 (log 3). -/
def Config.pcReset : Byte := 0x00

/-- What a memory cell holds after reset (70_reset_and_hazards.md rule R211), and so what an address that
the memory list does not hold reads as. -/
def Config.memReset : Byte := 0x00

/-- `FL_E` (R5): the bit position of E, equal. PRESUMED by the spec from LS-8, decision D4 (log 4). -/
def Config.flE : Nat := 0

/-- `FL_G` (R5): the bit position of G, greater. PRESUMED by the spec from LS-8, decision D4 (log 4). -/
def Config.flG : Nat := 1

/-- `FL_L` (R5): the bit position of L, less. PRESUMED by the spec from LS-8, decision D4 (log 4). -/
def Config.flL : Nat := 2

/-- `RET_CLEARS_CELL` (R5). DESIGN CHOICE of the spec, decision D9 (log 9). -/
def Config.retClearsCell : Bool := false

/-- `CALL_CHECKS_CELL` (R5). DESIGN CHOICE of the spec, decision D8 (log 8). -/
def Config.callChecksCell : Bool := false

/-- `LINE_TERMINATOR` (R5): the bytes PRN's rendering ends with. DESIGN CHOICE of the spec, decision D11
(log 11). -/
def Config.lineTerminator : List Byte := [0x0A]

end Sys2Proof
end

