-- ==== Sys2Proof/Syntax.lean ====
section
/-! DEFINITION. The instructions: one constructor per row of spec/opcode_table.json
(30_encoding.md rules R71 and R74). -/

namespace Sys2Proof

/-- An instruction with its operand bytes, as fetched. `a` is the first operand byte `opA` and `b` or
`imm` the second, `opB`. A register operand is kept as the WHOLE byte: the opcode byte alone selects the
instruction (R70), and a register operand byte above 7 is an executed instruction that raises
`RegisterIndexFault` with that byte (R73), so the byte must reach the machine unmasked. `Instr.wf` says
when the register operands name registers. -/
inductive Instr where
  | ldi (a imm : Byte)
  | prn (a : Byte)
  | mul (a b : Byte)
  | add (a b : Byte)
  | push (a : Byte)
  | pop (a : Byte)
  | call (a : Byte)
  | ret
  | cmp (a b : Byte)
  | jmp (a : Byte)
  | jeq (a : Byte)
  | jne (a : Byte)
  | hlt
  deriving DecidableEq, Repr

/-- The mnemonic of an instruction. -/
def Instr.mnemonic : Instr → Mnemonic
  | .ldi _ _ => .ldi
  | .prn _ => .prn
  | .mul _ _ => .mul
  | .add _ _ => .add
  | .push _ => .push
  | .pop _ => .pop
  | .call _ => .call
  | .ret => .ret
  | .cmp _ _ => .cmp
  | .jmp _ => .jmp
  | .jeq _ => .jeq
  | .jne _ => .jne
  | .hlt => .hlt

end Sys2Proof
end

