-- ==== Sys2Proof/Machine/State.lean ====
section
/-! DEFINITION. The architectural state of `cpu_core`, exactly the tuple of 10_state.md rule R20, the
state after reset (70_reset_and_hazards.md rule R210), and the reasons a step can stop. -/

namespace Sys2Proof.Machine

/-- Why the machine is halted (10_state.md rule R32): the clean halt and the four faults of
60_exceptions.md rule R180, each with the byte it records. -/
inductive Cause where
  /-- HLT, the clean halt (R105). -/
  | hlt
  /-- An unmapped opcode byte `op` was fetched (R104, R181). -/
  | invalidInstruction (op : Byte)
  /-- PUSH found a nonzero target cell (R140, R182). -/
  | stackOverflow
  /-- The ALU was given an operation outside its six (R127, R183). No instruction does so. -/
  | unsupportedOperation
  /-- A register operand byte `b` above 7 (R73, R184). -/
  | registerIndexFault (b : Byte)
  deriving DecidableEq, Repr

/-- The running/halted state (10_state.md rule R29). -/
inductive Run where
  | running
  | halted (c : Cause)
  deriving DecidableEq, Repr

/-- Memory: the cells that do not hold their reset value, as (address, byte) pairs in one canonical form
(`Memory.wf` in Machine/Ops.lean). The address space is the 256 cells of 20_memory.md rule R50. -/
abbrev Memory := List Host.Cell

/-- The whole state (R20). -/
structure State where
  /-- The eight general registers (R21). -/
  x : Vector Byte Config.nreg
  /-- The program counter, 8 bits (R24, R25). -/
  pc : Byte
  /-- The stack pointer, 8 bits, a register of its own (R30). -/
  sp : Byte
  /-- The flags, a dedicated 3-bit field (R27). -/
  fl : FlagBits
  /-- Memory (R36). -/
  mem : Memory
  /-- Running or halted, with the cause (R29). -/
  run : Run
  /-- The output trace, oldest value first (R31). -/
  out : List Byte
  deriving DecidableEq, Repr

/-- The machine right after reset (R210): all zero except the stack pointer, running, nothing emitted.
No step is taken before the host's `run` event (R215; Machine/HostPort.lean). -/
def State.reset : State where
  x := Vector.replicate Config.nreg 0
  pc := Config.pcReset
  sp := Config.spReset
  fl := 0
  mem := []
  run := .running
  out := []

/-- The reasons a step stops with no next state. The four faults of the spec are NOT among them: a fault
of the spec is a next state that is halted with the fault's cause (R195). -/
inductive Fault where
  /-- Raised by `step` alone, on a state that is already halted: "there is no step and no state changes
  until reset" (40_execute_cycle_hlt.md rule R100, decision D13; the stuck state of
  93_implementation_defined.md U13). Safe: the machine takes no step there either. -/
  | halted (c : Cause)
  deriving DecidableEq, Repr

/-- The reasons a step is refused. -/
inductive Refusal where
  /-- Raised by `exec` on an instruction that has no meaning yet. Safe. Every instruction of the opcode
  table has its meaning, so nothing raises it. -/
  | notModelled (mnemonic : String)
  deriving DecidableEq, Repr

/-- The outcome of a step. -/
abbrev StepOutcome := Host.Outcome State Fault Refusal

end Sys2Proof.Machine
end

