-- ==== Sys2Proof/Machine/Flags.lean ====
section
/-! DEFINITION. The flags field and the comparison that computes it (10_state.md rules R27 and R28,
45_compare_branch.md rule R160). CMP is the only instruction that computes flags. -/

namespace Sys2Proof.Machine

/-- The field with bit `i` alone set. -/
def flagBit (i : Nat) : FlagBits := 1#3 <<< i

/-- `FL_NONE = 0b000`: none of E, G, L, from reset until the first CMP (R27). -/
def flNone : FlagBits := 0

/-- `FL_EQ = 0b001` (R27). -/
def flEq : FlagBits := flagBit Config.flE

/-- `FL_GT = 0b010` (R27). -/
def flGt : FlagBits := flagBit Config.flG

/-- `FL_LT = 0b100` (R27). -/
def flLt : FlagBits := flagBit Config.flL

/-- The comparator (R45, R160): unsigned, the first operand the subject. The direction is a DESIGN CHOICE
of the spec, decision D5 (log 5). -/
def compareFlags (va vb : Byte) : FlagBits :=
  if va = vb then flEq else if va > vb then flGt else flLt

/-- The condition test of JEQ and JNE: the whole field equals `FL_EQ` (R45, R163, R164). -/
def isEqual (fl : FlagBits) : Bool := fl == flEq

/-- The four legal values of the field (R27). -/
abbrev flLegal (fl : FlagBits) : Prop := fl = flNone ∨ fl = flEq ∨ fl = flGt ∨ fl = flLt

end Sys2Proof.Machine
end

