-- ==== Sys2Proof/Machine/Ops.lean ====
section
/-! DEFINITION. The named operations over memory and registers (00_scope.md rule R9), fault entry
(60_exceptions.md rule R195), and the two stack operations that PUSH, POP, CALL and RET share. -/

namespace Sys2Proof.Machine

/-! ## Memory (20_memory.md rules R50, R51, R55) -/

/-- The byte at an address: the listed one, else the reset value of a cell (R211). -/
def Memory.read : Memory → Nat → Byte
  | [], _ => Config.memReset
  | (b, w) :: m, a => if a = b then w else Memory.read m a

/-- The memory with the cell at `a` back at its reset value. -/
def Memory.erase (m : Memory) (a : Nat) : Memory := m.filter fun c => c.1 ≠ a

/-- A cell put in its place in order of address. -/
def Memory.insert (a : Nat) (v : Byte) : Memory → Memory
  | [] => [(a, v)]
  | (b, w) :: m => if a < b then (a, v) :: (b, w) :: m else (b, w) :: Memory.insert a v m

/-- Store a byte. Storing the reset value removes the entry, so equal memories are equal lists. -/
def Memory.write (m : Memory) (a : Nat) (v : Byte) : Memory :=
  if v = Config.memReset then Memory.erase m a else Memory.insert a v (Memory.erase m a)

/-- The canonical form: addresses strictly rising and within the 256 cells, no entry at the reset value. -/
abbrev Memory.wf (m : Memory) : Prop :=
  m.Pairwise (fun c d => c.1 < d.1) ∧ ∀ c ∈ m, c.1 < Config.memSize ∧ c.2 ≠ Config.memReset

/-! ## Registers (10_state.md rules R21 to R30) -/

/-- `x[i]`: no register is hardwired or banked (R22). -/
def State.readReg (s : State) (i : Fin Config.nreg) : Byte := s.x[i]

/-- `x[i] <- v`. -/
def State.writeReg (s : State) (i : Fin Config.nreg) (v : Byte) : State := { s with x := s.x.set i v }

/-- `pc <- v`. -/
def State.setPc (s : State) (v : Byte) : State := { s with pc := v }

/-- `pc <- p +8 n`, `p` being the address of the instruction's opcode, which `pc` holds until the
instruction's last action (R24). -/
def State.advance (s : State) (n : Nat) : State := s.setPc (s.pc + trunc8 n)

/-- `sp <- v`. -/
def State.setSp (s : State) (v : Byte) : State := { s with sp := v }

/-- `fl <- v`. -/
def State.setFl (s : State) (v : FlagBits) : State := { s with fl := v }

/-- `Out(v)`: append a value to the output trace (R31). -/
def State.emit (s : State) (v : Byte) : State := { s with out := s.out ++ [v] }

/-- `halt(cause)` (R9): no further step is taken. -/
def State.halt (s : State) (c : Cause) : State := { s with run := .halted c }

/-- `MemRead(addr, 1)` (R51): every address the core forms is a byte, so no access can fail. -/
def State.memRead (s : State) (a : Byte) : Byte := Memory.read s.mem a.toNat

/-- `MemWrite(addr, 1, v)` (R51). -/
def State.memWrite (s : State) (a v : Byte) : State := { s with mem := Memory.write s.mem a.toNat v }

/-- Bytes stored at ascending addresses from `a`, wrapping past 0xFF (R25, R53). -/
def State.storeBytes (s : State) (a : Byte) : List Byte → State
  | [] => s
  | v :: vs => State.storeBytes (s.memWrite a v) (a + 1) vs

/-! ## Faults -/

/-- `raise`: fault entry (60_exceptions.md rule R195). Nothing is saved, control goes nowhere, no mode
changes; `pc` moves only for `InvalidInstruction` (R104). The caller passes the state as it was when the
instruction began, or, for `StackOverflow`, with `sp` restored. There is no return from a fault and so
no operation for it (R198): only reset leaves a halted state. -/
def State.raise (s : State) (c : Cause) : State :=
  match c with
  | .invalidInstruction _ => (s.advance 1).halt c
  | .hlt | .stackOverflow | .unsupportedOperation | .registerIndexFault _ => s.halt c

/-! ## The stack (10_state.md rule R30, 43_stack.md rule R147) -/

/-- Decrement `sp`, then store a byte at the new `sp` and go on, or, where the cell is checked and is not
zero, restore `sp` and raise `StackOverflow`. PUSH checks the cell (R140); CALL does not (R150, the
parameter `CALL_CHECKS_CELL`). -/
def stackPush (checks : Bool) (v : Byte) (s : State) (k : State → State) : State :=
  let s1 := s.setSp (s.sp - 1)
  if checks && s1.memRead s1.sp != 0 then
    (s1.setSp s.sp).raise .stackOverflow
  else
    k (s1.memWrite s1.sp v)

/-- Read the byte at `sp`, zero the cell where the instruction does so, increment `sp` and go on with the
byte. POP zeroes the cell (R143); RET does not (R152, the parameter `RET_CLEARS_CELL`). -/
def stackPop (clears : Bool) (s : State) (k : Byte → State → State) : State :=
  let v := s.memRead s.sp
  let s1 := if clears then s.memWrite s.sp 0 else s
  k v (s1.setSp (s.sp + 1))

end Sys2Proof.Machine
end

