-- ==== Sys2Proof/Machine/Operands.lean ====
section
/-! DEFINITION. Register operands (30_encoding.md rule R73). The one other operand form is LDI's
immediate, which is its operand byte as it stands (R72). -/

namespace Sys2Proof.Machine

/-- `reg(b)`: the register a register operand byte names, if it names one. -/
def regIndex (b : Byte) : Option (Fin Config.nreg) :=
  if h : b.toNat < Config.nreg then some ⟨b.toNat, h⟩ else none

/-- `a <- reg(opA)`, then the rest of the instruction; `RegisterIndexFault(opA)` before any state changes
where the byte is above 7. DESIGN CHOICE of the spec, decision D6 (log 6). -/
def withReg (opA : Byte) (s : State) (k : Fin Config.nreg → State) : State :=
  match regIndex opA with
  | some a => k a
  | none => s.raise (.registerIndexFault opA)

/-- `a <- reg(opA)`, `b <- reg(opB)`: `opA` is checked before `opB` (60_exceptions.md rule R192, decision
D20, log 6). -/
def withRegs (opA opB : Byte) (s : State) (k : Fin Config.nreg → Fin Config.nreg → State) : State :=
  withReg opA s fun a => withReg opB s fun b => k a b

end Sys2Proof.Machine
end

