-- ==== Sys2Proof/Machine/Alu.lean ====
section
/-! DEFINITION. The ALU with its six operations, and MUL and ADD (42_alu.md). -/

namespace Sys2Proof.Machine

/-- The operation the ALU is given: one of its six, or anything else (R120). The operation is abstract;
the source gives it no code (decision D16, log 16). -/
inductive AluOp where
  | add | multiply | and | or | xor | not | unrecognised
  deriving DecidableEq, Repr

/-- `alu(op, va, vb)` (R120): stateless, no flag, no carry; `none` is `unsupported`. NOT is the NAND of
the two operands (R126), kept as the source has it. No instruction selects AND, OR, XOR or NOT (R128). -/
def alu (op : AluOp) (va vb : Byte) : Option Byte :=
  match op with
  | .add => some (trunc8 (va.toNat + vb.toNat))
  | .multiply => some (trunc8 (va.toNat * vb.toNat))
  | .and => some (va &&& vb)
  | .or => some (va ||| vb)
  | .xor => some (va ^^^ vb)
  | .not => some (~~~(va &&& vb))
  | .unrecognised => none

/-- `x[a] <- alu(op, x[a], x[b])`, both operands read before the result is written (R43). An operation
outside the six raises `UnsupportedOperation` with nothing written (R127, decision D21, log 19). -/
def aluWrite (op : AluOp) (a b : Fin Config.nreg) (s : State) : State :=
  match alu op (s.readReg a) (s.readReg b) with
  | some v => (s.writeReg a v).advance 3
  | none => s.raise .unsupportedOperation

/-- An instruction of the ALU class, of three bytes. -/
def aluInstr (op : AluOp) (opA opB : Byte) (s : State) : State :=
  withRegs opA opB s fun a b => aluWrite op a b s

/-- MUL, multiply (R130). -/
def execMul (opA opB : Byte) (s : State) : StepOutcome := .next (aluInstr .multiply opA opB s)

/-- ADD, add (R131). -/
def execAdd (opA opB : Byte) (s : State) : StepOutcome := .next (aluInstr .add opA opB s)

end Sys2Proof.Machine
end

