-- ==== Sys2Proof/Machine/CallRet.lean ====
section
/-! DEFINITION. CALL and RET (44_call_ret.md), each over its parameter of 00_scope.md rule R5. -/

namespace Sys2Proof.Machine

/-- CALL (R150) for a value of `CALL_CHECKS_CELL`: the target is read before the store, and the return
address is `p +8 2`. -/
def callWith (checks : Bool) (opA : Byte) (s : State) : State :=
  withReg opA s fun a => stackPush checks (s.pc + 2) s fun t => t.setPc (s.readReg a)

/-- CALL (R150). -/
def execCall (opA : Byte) (s : State) : StepOutcome := .next (callWith Config.callChecksCell opA s)

/-- RET (R152) for a value of `RET_CLEARS_CELL`. -/
def retWith (clears : Bool) (s : State) : State := stackPop clears s fun v t => t.setPc v

/-- RET (R152): never fails. -/
def execRet (s : State) : StepOutcome := .next (retWith Config.retClearsCell s)

end Sys2Proof.Machine
end

