-- ==== Sys2Proof/Machine/CompareBranch.lean ====
section
/-! DEFINITION. CMP, JMP, JEQ and JNE (45_compare_branch.md). -/

namespace Sys2Proof.Machine

/-- CMP, compare two registers (R160). -/
def execCmp (opA opB : Byte) (s : State) : StepOutcome :=
  .next (withRegs opA opB s fun a b => (s.setFl (compareFlags (s.readReg a) (s.readReg b))).advance 3)

/-- A jump of two bytes that is taken or not; the register operand is checked either way (R163, R164,
decision D10, log 10). -/
def jumpIf (taken : Bool) (opA : Byte) (s : State) : State :=
  withReg opA s fun a => if taken then s.setPc (s.readReg a) else s.advance 2

/-- JMP (R162). -/
def execJmp (opA : Byte) (s : State) : StepOutcome := .next (jumpIf true opA s)

/-- JEQ, jump if equal (R163). -/
def execJeq (opA : Byte) (s : State) : StepOutcome := .next (jumpIf (isEqual s.fl) opA s)

/-- JNE, jump if not equal (R164). -/
def execJne (opA : Byte) (s : State) : StepOutcome := .next (jumpIf (!isEqual s.fl) opA s)

end Sys2Proof.Machine
end

