-- ==== Sys2Proof/Machine/Halt.lean ====
section
/-! DEFINITION. HLT (40_execute_cycle_hlt.md rule R105). -/

namespace Sys2Proof.Machine

/-- HLT: a clean halt; `pc` keeps the address of the HLT opcode and nothing else changes. -/
def execHlt (s : State) : StepOutcome := .next (s.halt .hlt)

end Sys2Proof.Machine
end

