-- ==== Sys2Proof/Machine/LoadPrint.lean ====
section
/-! DEFINITION. LDI and PRN (41_load_print.md), and how PRN's value is rendered on the host's stream. -/

namespace Sys2Proof.Machine

/-- LDI, load immediate (R110). -/
def execLdi (opA opB : Byte) (s : State) : StepOutcome :=
  .next (withReg opA s fun a => (s.writeReg a opB).advance 3)

/-- PRN, print numeric (R112). -/
def execPrn (opA : Byte) (s : State) : StepOutcome :=
  .next (withReg opA s fun a => (s.emit (s.readReg a)).advance 2)

/-- The ASCII digit of a number below 10. -/
def asciiDigit (d : Nat) : Byte := trunc8 (0x30 + d)

/-- The decimal digits of a byte, unsigned, without leading zeros, `0` for zero (R31, R112). -/
def decimalDigits (v : Byte) : List Byte :=
  let n := v.toNat
  if n < 10 then [asciiDigit n]
  else if n < 100 then [asciiDigit (n / 10), asciiDigit (n % 10)]
  else [asciiDigit (n / 100), asciiDigit (n / 10 % 10), asciiDigit (n % 10)]

/-- One PRN on the host's stream: the decimal string, then the line terminator (R31; decision D11, log 11). -/
def renderPrn (v : Byte) : List Byte := decimalDigits v ++ Config.lineTerminator

/-- The whole of a run's standard output. -/
def renderOut (out : List Byte) : List Byte := out.flatMap renderPrn

end Sys2Proof.Machine
end

