-- ==== Sys2Proof/Machine/Stack.lean ====
section
/-! DEFINITION. PUSH and POP (43_stack.md). -/

namespace Sys2Proof.Machine

/-- PUSH (R140): the register index is checked first, then the target cell. `pc` after `StackOverflow` is
the address of the PUSH, a DESIGN CHOICE of the spec, decision D7 (log 7). -/
def execPush (opA : Byte) (s : State) : StepOutcome :=
  .next (withReg opA s fun a => stackPush true (s.readReg a) s fun t => t.advance 2)

/-- POP (R143): never fails on stack state. -/
def execPop (opA : Byte) (s : State) : StepOutcome :=
  .next (withReg opA s fun a => stackPop true s fun v t => (t.writeReg a v).advance 2)

end Sys2Proof.Machine
end

