-- ==== Sys2Proof/WellFormed.lean ====
section
/-! DEFINITION. Well-formed instructions: those whose register operand bytes have bits 7..3 zero
(30_encoding.md rules R71, R73 and R79: the only constrained bits within a legal instruction). -/

namespace Sys2Proof

/-- A register operand byte that names a register: `b <= 7` (R73). -/
def regByteOk (b : Byte) : Bool := b ≤ 7

/-- Every register operand byte of the instruction names a register. LDI's immediate is unconstrained
(R79). An instruction that is not well-formed still decodes and still executes: it raises
`RegisterIndexFault` (R73). -/
def Instr.wf : Instr → Bool
  | .ldi a _ => regByteOk a
  | .prn a => regByteOk a
  | .mul a b => regByteOk a && regByteOk b
  | .add a b => regByteOk a && regByteOk b
  | .push a => regByteOk a
  | .pop a => regByteOk a
  | .call a => regByteOk a
  | .ret => true
  | .cmp a b => regByteOk a && regByteOk b
  | .jmp a => regByteOk a
  | .jeq a => regByteOk a
  | .jne a => regByteOk a
  | .hlt => true

end Sys2Proof
end

