-- ==== Sys2Proof/Decode.lean ====
section
/-! DEFINITION. The decoder (30_encoding.md rules R70 to R79; the `decoder` sub-block of 10_state.md rule
R42) and the encoder, both written over an opcode map `opc : Mnemonic → Byte`, the parameter `OPC` of
00_scope.md rule R5, and then at the spec's own map. -/

namespace Sys2Proof

/-! ## The opcode map -/

/-- `OPC`: the opcode byte of each instruction (30_encoding.md rule R74). PRESUMED by the spec from LS-8,
decision D1 (log 1). -/
def opc : Mnemonic → Byte
  | .ldi => 0b10000010
  | .prn => 0b01000111
  | .mul => 0b10100010
  | .add => 0b10100000
  | .push => 0b01000101
  | .pop => 0b01000110
  | .call => 0b01010000
  | .ret => 0b00010001
  | .cmp => 0b10100111
  | .jmp => 0b01010100
  | .jeq => 0b01010101
  | .jne => 0b01010110
  | .hlt => 0b00000001

/-- What 00_scope.md rule R6 asks of any value of `OPC`: the byte values are pairwise distinct and 0xFF is
not among them. -/
def OpcAdmissible (m : Mnemonic → Byte) : Prop :=
  (∀ i j, m i = m j → i = j) ∧ ∀ i, m i ≠ 0xFF

/-- How many operand bytes follow the opcode byte: formats Z, R, and RR or RI (R71). -/
def operandCount : Mnemonic → Nat
  | .ldi => 2
  | .prn => 1
  | .mul => 2
  | .add => 2
  | .push => 1
  | .pop => 1
  | .call => 1
  | .ret => 0
  | .cmp => 2
  | .jmp => 1
  | .jeq => 1
  | .jne => 1
  | .hlt => 0

/-- The length of an instruction in bytes, the opcode byte included (R70, R71). -/
def instrLength (m : Mnemonic) : Nat := 1 + operandCount m

/-- The mnemonic an opcode byte stands for: the whole byte is compared with the 13 values (R75). -/
def lookupOpcode (m : Mnemonic → Byte) (op : Byte) : Option Mnemonic :=
  Mnemonic.all.find? fun i => m i == op

/-! ## Decoding -/

/-- Why a list of bytes is not an instruction. -/
inductive DecodeError where
  /-- The first byte is none of the 13 opcode bytes (R78). -/
  | unmappedOpcode (op : Byte)
  /-- The list ends before the instruction does. The machine never meets it: memory has no end
  (10_state.md rule R25), and a fetch delivers every byte of the instruction. -/
  | truncated
  deriving DecidableEq, Repr

/-- The result of decoding: an instruction and the bytes after it, or the reason there is none. -/
abbrev Decoded := Except DecodeError (Instr × List Byte)

/-- Format R: one operand byte (R71). -/
def takeOne (k : Byte → Instr) : List Byte → Decoded
  | a :: rest => .ok (k a, rest)
  | [] => .error .truncated

/-- Formats RR and RI: two operand bytes, the first at the lower address (R70, R71). -/
def takeTwo (k : Byte → Byte → Instr) : List Byte → Decoded
  | a :: b :: rest => .ok (k a b, rest)
  | [_] => .error .truncated
  | [] => .error .truncated

/-- The operand bytes of each instruction, read whole (R71 to R73). -/
def takeOperands (rest : List Byte) : Mnemonic → Decoded
  | .ldi => takeTwo .ldi rest
  | .prn => takeOne .prn rest
  | .mul => takeTwo .mul rest
  | .add => takeTwo .add rest
  | .push => takeOne .push rest
  | .pop => takeOne .pop rest
  | .call => takeOne .call rest
  | .ret => .ok (.ret, rest)
  | .cmp => takeTwo .cmp rest
  | .jmp => takeOne .jmp rest
  | .jeq => takeOne .jeq rest
  | .jne => takeOne .jne rest
  | .hlt => .ok (.hlt, rest)

/-- Decoding with a given opcode map: total on any bytes, rejecting by name (R75, R78). -/
def decodeWith (m : Mnemonic → Byte) : List Byte → Decoded
  | [] => .error .truncated
  | op :: rest =>
    match lookupOpcode m op with
    | some i => takeOperands rest i
    | none => .error (.unmappedOpcode op)

/-- The decoder of the machine. -/
def decode (bytes : List Byte) : Decoded := decodeWith opc bytes

/-! ## Encoding -/

/-- The operand bytes of an instruction, in order of ascending address (R71). -/
def operandBytes : Instr → List Byte
  | .ldi a imm => [a, imm]
  | .prn a => [a]
  | .mul a b => [a, b]
  | .add a b => [a, b]
  | .push a => [a]
  | .pop a => [a]
  | .call a => [a]
  | .ret => []
  | .cmp a b => [a, b]
  | .jmp a => [a]
  | .jeq a => [a]
  | .jne a => [a]
  | .hlt => []

/-- The bytes of an instruction under a given opcode map: the opcode byte, then the operand bytes (R70). -/
def encodeWith (m : Mnemonic → Byte) (i : Instr) : List Byte := m i.mnemonic :: operandBytes i

/-- The bytes of an instruction (R71 and R74; the "Bytes emitted" of R80). -/
def encode (i : Instr) : List Byte := encodeWith opc i

/-! ## Words numbered as the opcode table numbers them -/

/-- Byte `k` of a word whose bit 0 is the least significant bit of the first byte. -/
def tableByte (w k : Nat) : Byte := BitVec.ofNat 8 (w / 2 ^ (8 * k))

/-- The bytes of a table word: `nbits` bits of `w`, every bit above them 0, to the longest instruction
(3 bytes), the first byte at the lowest address. -/
def tableBytes (nbits w : Nat) : List Byte :=
  let v := w % 2 ^ nbits
  [tableByte v 0, tableByte v 1, tableByte v 2]

/-- The instruction the decoder reads from a table word. -/
def decodeTableWord (nbits w : Nat) : Option Instr :=
  match decode (tableBytes nbits w) with
  | .ok (i, _) => some i
  | .error _ => none

end Sys2Proof
end

