-- ==== Sys2Proof/Machine/Fetch.lean ====
section
/-! DEFINITION. Fetching and decoding at `pc` (40_execute_cycle_hlt.md rules R101 and R102; the
`fetch_unit` of 10_state.md rule R41), and the two steps that execute no instruction. -/

namespace Sys2Proof.Machine

/-- The bytes the step reads at `pc`: the opcode byte, then the operand bytes of its instruction and no
others; of an unmapped opcode the opcode byte alone (R41, R102; decisions D10 and D24, log 10). -/
def fetchBytes (s : State) : List Byte :=
  let op := s.memRead s.pc
  match (lookupOpcode opc op).map operandCount with
  | some 2 => [op, s.memRead (s.pc + 1), s.memRead (s.pc + 2)]
  | some 1 => [op, s.memRead (s.pc + 1)]
  | _ => [op]

/-- The instruction at `pc`. -/
def fetchInstr (s : State) : Decoded := decode (fetchBytes s)

/-- An unmapped opcode (R104): `pc <- pc +8 1`, halt with the opcode byte. -/
def execUnmapped (s : State) : StepOutcome := .next (s.raise (.invalidInstruction (s.memRead s.pc)))

/-- A halted machine takes no step (R100; decision D13, log 13). -/
def haltedOutcome (c : Cause) : StepOutcome := .fault (.halted c)

end Sys2Proof.Machine
end

