-- ==== Sys2Proof/Machine/Step.lean ====
section
/-! DEFINITION. The step (40_execute_cycle_hlt.md rules R100 and R103). -/

namespace Sys2Proof.Machine

/-- One step: a halted machine takes none; a running one fetches and decodes at `pc` and executes the
instruction, or halts on an unmapped opcode. Each instruction writes `pc` itself; the step adds nothing
(R103). -/
def step (s : State) : Host.Outcome State Fault Refusal :=
  match s.run with
  | .halted c => haltedOutcome c
  | .running =>
    match fetchInstr s with
    | .ok (i, _) => exec i s
    | .error _ => execUnmapped s

/-- `s` with the instruction of a table word stored where the next step fetches, and running, since only a
running machine fetches (log 18). The bytes go to `pc`, `pc +8 1` and `pc +8 2`. -/
def State.withFetchWord (s : State) (nbits w : Nat) : State :=
  { s.storeBytes s.pc (tableBytes nbits w) with run := .running }

end Sys2Proof.Machine
end

