-- ==== Sys2Proof/Machine/Access.lean ====
section
/-! DEFINITION. The memory accesses of one step, in the order they happen (20_memory.md rule R56). The
meanings do not use this list; the statements `Obligations.MemoryIsReplayOfAccesses` and
`Obligations.StepReadsOnlyItsAccesses` say that it is exact. -/

namespace Sys2Proof.Machine

/-- One access of one cell. -/
inductive Access where
  | read (a : Byte)
  | write (a v : Byte)
  deriving DecidableEq, Repr

/-- The reads of `n` instruction bytes at ascending addresses from `p`. -/
def readsFrom (p : Byte) : Nat → List Access
  | 0 => []
  | n + 1 => .read p :: readsFrom (p + 1) n

/-- The accesses of a push of `v`: the check where there is one, then the store if the check passes. -/
def pushAccesses (checks : Bool) (v : Byte) (s : State) : List Access :=
  let a := s.sp - 1
  if checks then
    if s.memRead a = 0 then [.read a, .write a v] else [.read a]
  else [.write a v]

/-- The accesses of a pop. -/
def popAccesses (clears : Bool) (s : State) : List Access :=
  if clears then [.read s.sp, .write s.sp 0] else [.read s.sp]

/-- The accesses an instruction makes after its own bytes are read. An instruction that raises
`RegisterIndexFault` makes none (R73: before it changes or reads anything else). -/
def dataAccesses (i : Instr) (s : State) : List Access :=
  match i with
  | .push a => match regIndex a with
    | some r => pushAccesses true (s.readReg r) s
    | none => []
  | .pop a => if regByteOk a then popAccesses true s else []
  | .call a => if regByteOk a then pushAccesses Config.callChecksCell (s.pc + 2) s else []
  | .ret => popAccesses Config.retClearsCell s
  | .ldi _ _ => []
  | .prn _ => []
  | .mul _ _ => []
  | .add _ _ => []
  | .cmp _ _ => []
  | .jmp _ => []
  | .jeq _ => []
  | .jne _ => []
  | .hlt => []

/-- The accesses of the step taken from `s`, in order; a halted machine makes none. -/
def stepAccesses (s : State) : List Access :=
  match s.run with
  | .halted _ => []
  | .running =>
    match fetchInstr s with
    | .ok (i, _) => readsFrom s.pc (instrLength i.mnemonic) ++ dataAccesses i s
    | .error _ => [.read s.pc]

/-- The memory after the writes of a list of accesses, made in order. -/
def replay (m : Memory) : List Access → Memory
  | [] => m
  | .read _ :: as => replay m as
  | .write a v :: as => replay (Memory.write m a.toNat v) as

end Sys2Proof.Machine
end

