-- ==== Sys2Proof/Machine/Blocks.lean ====
section
/-! DEFINITION. The six sub-blocks of `cpu_core` (10_state.md rules R40 to R46) as functions, and the step
they make together. They add no state and no behaviour: the statement `Obligations.BlocksRefineStep` says
that the machine built from them is the machine of Machine/Step.lean. The names and the grouping of the
control signals are this model's (log 17); the spec lists what the signals select. -/

namespace Sys2Proof.Machine

/-! ## decoder (R42) -/

/-- What the stack pointer does (R46; `restore` is the fault path of `stackOverflows`). -/
inductive SpOp where
  | hold | decrement | increment
  deriving DecidableEq, Repr

/-- What is written to the addressed stack cell. -/
inductive MemData where
  | regA | zero | returnAddress
  deriving DecidableEq, Repr

/-- What is written to the destination register. -/
inductive WriteBack where
  | immediate | aluResult | memByte
  deriving DecidableEq, Repr

/-- The next-`pc` source (R45). -/
inductive PcSource where
  | sequential | regA | memByte | regAIfEqual | regAIfNotEqual | hold
  deriving DecidableEq, Repr

/-- The decoder's outputs for one instruction (R42). -/
structure Control where
  /-- The length in bytes. -/
  length : Nat
  /-- `opA` is a register index. -/
  regA : Bool := false
  /-- `opB` is a register index. -/
  regB : Bool := false
  /-- The ALU operation, if any. -/
  aluOp : Option AluOp := none
  spOp : SpOp := .hold
  /-- The addressed cell must hold zero. -/
  cellCheck : Bool := false
  /-- The memory write, if any. -/
  memWrite : Option MemData := none
  /-- The register-file write, if any. -/
  regWrite : Option WriteBack := none
  /-- The write enable of `fl`, asserted only by CMP (R43). -/
  flWrite : Bool := false
  /-- `out_valid` (R47). -/
  outValid : Bool := false
  pcSource : PcSource := .sequential
  /-- Halt cleanly. -/
  halt : Bool := false
  deriving DecidableEq, Repr

/-- The control signals of each instruction. -/
def controlOf : Mnemonic → Control
  | .ldi => { length := 3, regA := true, regWrite := some .immediate }
  | .prn => { length := 2, regA := true, outValid := true }
  | .mul => { length := 3, regA := true, regB := true, aluOp := some .multiply, regWrite := some .aluResult }
  | .add => { length := 3, regA := true, regB := true, aluOp := some .add, regWrite := some .aluResult }
  | .push => { length := 2, regA := true, spOp := .decrement, cellCheck := true, memWrite := some .regA }
  | .pop => { length := 2, regA := true, spOp := .increment, memWrite := some .zero,
              regWrite := some .memByte }
  | .call => { length := 2, regA := true, spOp := .decrement, cellCheck := Config.callChecksCell,
               memWrite := some .returnAddress, pcSource := .regA }
  | .ret => { length := 1, spOp := .increment,
              memWrite := if Config.retClearsCell then some .zero else none, pcSource := .memByte }
  | .cmp => { length := 3, regA := true, regB := true, flWrite := true }
  | .jmp => { length := 2, regA := true, pcSource := .regA }
  | .jeq => { length := 2, regA := true, pcSource := .regAIfEqual }
  | .jne => { length := 2, regA := true, pcSource := .regAIfNotEqual }
  | .hlt => { length := 1, pcSource := .hold, halt := true }

/-- The decoder: a total map from the opcode byte to one of 14 outcomes, `none` being `Invalid` (R42). -/
def decoderBlock (op : Byte) : Option Control := (lookupOpcode opc op).map controlOf

/-- The decoder's register-index check: the byte that faults, `opA` before `opB` (R42, R73, R192). -/
def indexFault (c : Control) (opA opB : Byte) : Option Byte :=
  if c.regA && !regByteOk opA then some opA
  else if c.regB && !regByteOk opB then some opB
  else none

/-! ## fetch_unit (R41) -/

/-- The opcode byte. -/
def fetchOpcode (mem : Memory) (pc : Byte) : Byte := Memory.read mem pc.toNat

/-- The operand byte at `pc +8 k`, fetched only where the length reaches it; 0 stands on the unused wire. -/
def fetchOperand (mem : Memory) (pc : Byte) (length k : Nat) : Byte :=
  if k < length then Memory.read mem (pc + trunc8 k).toNat else 0

/-! ## register_file (R43) -/

/-- A read port, its index the low three bits of an operand byte. -/
def readPort (x : Vector Byte Config.nreg) (index : BitVec 3) : Byte := x[index.toNat]'index.isLt

/-- The write port. -/
def writePort (x : Vector Byte Config.nreg) (index : BitVec 3) (data : Option Byte) :
    Vector Byte Config.nreg :=
  match data with
  | some v => x.set index.toNat v index.isLt
  | none => x

/-! ## stack_pointer_register (R46) -/

/-- The next stack pointer. -/
def spNext (op : SpOp) (sp : Byte) : Byte :=
  match op with
  | .hold => sp
  | .decrement => sp - 1
  | .increment => sp + 1

/-- The address of the stack access: the decremented pointer for a push, the pointer itself for a pop (R147). -/
def stackAddress (op : SpOp) (sp : Byte) : Byte :=
  match op with
  | .decrement => sp - 1
  | .hold | .increment => sp

/-! ## program_counter_control (R45) -/

/-- The next program counter. -/
def pcNext (c : Control) (pc va memByte : Byte) (fl : FlagBits) : Byte :=
  let sequential := pc + trunc8 c.length
  match c.pcSource with
  | .sequential => sequential
  | .regA => va
  | .memByte => memByte
  | .regAIfEqual => if isEqual fl then va else sequential
  | .regAIfNotEqual => if isEqual fl then sequential else va
  | .hold => pc

/-! ## The blocks together -/

/-- The byte on the memory write port. -/
def memData (c : Control) (pc va : Byte) : Option Byte :=
  c.memWrite.map fun
    | .regA => va
    | .zero => 0
    | .returnAddress => pc + trunc8 c.length

/-- The byte on the register file's write port. -/
def writeBack (c : Control) (imm memByte aluOut : Byte) : Option Byte :=
  c.regWrite.map fun
    | .immediate => imm
    | .aluResult => aluOut
    | .memByte => memByte

/-- The cell check of PUSH fails: `sp` is restored and nothing is written (R46, R140). -/
def stackOverflows (c : Control) (memByte : Byte) : Bool := c.cellCheck && memByte != 0

/-- One instruction through the data path, given its control signals and operand bytes. -/
def blockExec (c : Control) (opA opB : Byte) (s : State) : State :=
  match indexFault c opA opB with
  | some b => s.raise (.registerIndexFault b)
  | none =>
    let indexA := opA.setWidth 3
    let va := readPort s.x indexA
    let vb := readPort s.x (opB.setWidth 3)
    let address := stackAddress c.spOp s.sp
    let memByte := Memory.read s.mem address.toNat
    let aluOut := match c.aluOp with
      | some op => alu op va vb
      | none => some 0
    if stackOverflows c memByte then s.raise .stackOverflow
    else match aluOut with
      | none => s.raise .unsupportedOperation
      | some r =>
        { x := writePort s.x indexA (writeBack c opB memByte r)
          pc := pcNext c s.pc va memByte s.fl
          sp := spNext c.spOp s.sp
          fl := if c.flWrite then compareFlags va vb else s.fl
          mem := match memData c s.pc va with
            | some v => Memory.write s.mem address.toNat v
            | none => s.mem
          run := if c.halt then .halted .hlt else s.run
          out := if c.outValid then s.out ++ [va] else s.out }

/-- One step of the machine built from the blocks. -/
def blockStep (s : State) : StepOutcome :=
  match s.run with
  | .halted c => .fault (.halted c)
  | .running =>
    let op := fetchOpcode s.mem s.pc
    match decoderBlock op with
    | none => .next (s.raise (.invalidInstruction op))
    | some c => .next (blockExec c (fetchOperand s.mem s.pc c.length 1) (fetchOperand s.mem s.pc c.length 2) s)

end Sys2Proof.Machine
end

