-- ==== Sys2Proof/Machine/HostPort.lean ====
section
/-! DEFINITION. The host's side of the core: its ports, the loader's contract, the run, and the order of
the host's events (10_state.md rule R47; 70_reset_and_hazards.md rules R210 to R217 and R231). None of it
is state of the core (R20). -/

namespace Sys2Proof.Machine

/-! ## Ports (R47) -/

/-- The 3-bit code of a cause (10_state.md rule R32, decision D12, log 12). -/
def Cause.code : Cause → BitVec 3
  | .hlt => 0
  | .invalidInstruction _ => 1
  | .stackOverflow => 2
  | .unsupportedOperation => 3
  | .registerIndexFault _ => 4

/-- The `info` byte of a cause (R32). -/
def Cause.info : Cause → Byte
  | .invalidInstruction op => op
  | .registerIndexFault b => b
  | .hlt | .stackOverflow | .unsupportedOperation => 0x00

/-- The port `halted`. -/
def haltedPort (s : State) : Bool :=
  match s.run with
  | .running => false
  | .halted _ => true

/-- The ports `cause` and `info`, valid when `halted = 1`. -/
def causePorts (s : State) : Option (BitVec 3 × Byte) :=
  match s.run with
  | .running => none
  | .halted c => some (c.code, c.info)

/-- The ports `out_valid` and `out_data` during the step from `s`: the value that the step appends to `out`, if
it appends one. -/
def outPort (s : State) : Option Byte :=
  match step s with
  | .next t => t.out[s.out.length]?
  | .fault _ => none
  | .refused _ => none

/-! ## The loader (R216) -/

/-- The loader's contract: an image of at most 256 bytes goes to the cells from address 0, and nothing
else is touched; a longer image is refused (decision D15, log 15). -/
def load (image : List Byte) (s : State) : Option State :=
  if image.length ≤ Config.memSize then some (s.storeBytes 0 image) else none

/-- The standard launch state of an image (R217). -/
def launch (image : List Byte) : Option State := load image State.reset

/-! ## The run (R106) -/

/-- At most `n` steps; the run ends at the first halted state, which stays as it is. -/
def runFor : Nat → State → State
  | 0, s => s
  | n + 1, s =>
    match step s with
    | .next t => runFor n t
    | .fault _ => s
    | .refused _ => s

/-! ## The host's events (R212, R215, R231) -/

/-- Where the host stands. -/
inductive HostPhase where
  /-- After `reset`, before any image. -/
  | fresh
  /-- After the loader has written its one image. -/
  | loaded
  /-- After the host's `run`. -/
  | started
  /-- After the core has halted. -/
  | ended
  deriving DecidableEq, Repr

/-- What can happen next. -/
inductive HostEvent where
  | reset
  | load (image : List Byte)
  | run
  | step
  deriving DecidableEq, Repr

/-- The core with the host's phase. -/
structure System where
  phase : HostPhase
  core : State
  deriving DecidableEq, Repr

/-- After reset. -/
def System.init : System where
  phase := .fresh
  core := State.reset

/-- What an event does, `none` where it may not happen: reset before `run` (R231) and after the halt (R29,
R100), to one state only (R212); one image before `run` (R231); no step before `run` (R215); during the run
nothing but steps. That there is no reset DURING a run is DEDUCED, the model's reading (log 25): R47 lists
`reset` without a condition, while R231 lists it before `run` only and forbids the host to stop or cancel
the core, and nothing asynchronous happens to a running core (60_exceptions.md rule R190). -/
def System.event (y : System) (e : HostEvent) : Option System :=
  match e, y.phase with
  | .reset, .fresh => some System.init
  | .reset, .loaded => some System.init
  | .reset, .ended => some System.init
  | .reset, .started => none
  | .load image, .fresh => (load image y.core).map fun s => { phase := .loaded, core := s }
  | .run, .fresh => some { y with phase := .started }
  | .run, .loaded => some { y with phase := .started }
  | .step, .started =>
    match step y.core with
    | .next t => some { phase := if haltedPort t then .ended else .started, core := t }
    | .fault _ => none
    | .refused _ => none
  | .load _, .loaded => none
  | .load _, .started => none
  | .load _, .ended => none
  | .run, .started => none
  | .run, .ended => none
  | .step, .fresh => none
  | .step, .loaded => none
  | .step, .ended => none

end Sys2Proof.Machine
end

