-- ==== Sys2Proof/Safety.lean ====
section
/-! DEFINITION. What counts as a well-formed state and as a safe run, in the terms the statements use. -/

namespace Sys2Proof.Machine

/-- The invariant of the machine: memory in canonical form within the 256 cells, and the flags at one of
their four legal values (10_state.md rule R27: "No other value is ever produced"). -/
def Inv (s : State) : Prop := Memory.wf s.mem ∧ flLegal s.fl

/-- A clean halt (40_execute_cycle_hlt.md rule R106). -/
def CleanHalt (s : State) : Prop := s.run = .halted .hlt

/-- A run that has ended in a fault: "a fault for every other cause" (R106). -/
def Faulted (s : State) : Prop := ∃ c, s.run = .halted c ∧ c ≠ .hlt

/-- A safe run: no number of steps from `s` ends in a fault. It need not end. -/
def SafeRun (s : State) : Prop := ∀ n, ¬ Faulted (runFor n s)

/-- The invariant of the core with its host: the core meets `Inv`; before the loader it is as reset left it
(R210), and before `run` as the loader left it (R216); the host is past the run exactly if the core is
halted (R106, R215). -/
structure SystemInv (y : System) : Prop where
  core : Inv y.core
  fresh : y.phase = .fresh → y.core = State.reset
  loaded : y.phase = .loaded → y.core = { State.reset with mem := y.core.mem }
  ended : y.phase = .ended ↔ ∃ c, y.core.run = .halted c

/-- The systems the host's events reach from reset. -/
inductive Reachable : System → Prop where
  | init : Reachable System.init
  | event {y z : System} {e : HostEvent} : Reachable y → y.event e = some z → Reachable z

end Sys2Proof.Machine
end

