-- ==== Sys2Proof/Certificates/Slice0/Obligations.lean ====
section
/-! DEFINITION. The statements for the provers. `opA` and `opB` are operand bytes as fetched; "`opA` names
register `a`" is `opA.toNat = a`. Every instruction's result statement says what happens where the register
operands name registers AND where they do not (RegisterIndexFault, the spec's decision D6, log 6). Byte
values of opcodes are the spec's decision D1 (log 1). -/

open Sys2Proof Sys2Proof.Machine

/-! ## Reset -/

/-- R210, R211. The value of `pc` is decision D3 (log 3), `out` being a list decision D11 (log 11). -/
def Obligations.ResetState : Prop :=
  (∀ i : Fin 8, State.reset.readReg i = 0) ∧ State.reset.sp = 0xF4 ∧ State.reset.fl = 0b000 ∧
    (∀ e : Byte, State.reset.memRead e = 0) ∧ State.reset.run = .running ∧ State.reset.out = [] ∧
    State.reset.pc = 0x00 ∧ core.reset = State.reset

/-- Reset satisfies the invariant of the machine. -/
def Obligations.ResetMeetsInv : Prop := Inv State.reset

/-! ## Encoding -/

/-- R6, of the spec's own map. -/
def Obligations.OpcodeMapMeetsR6 : Prop :=
  (∀ i j : Mnemonic, i ≠ j → opc i ≠ opc j) ∧ ∀ i : Mnemonic, opc i ≠ 0xFF

/-- R70 to R76: under EVERY opcode map that R6 admits, decoding the encoding of any instruction, with any
operand bytes, gives the instruction back and leaves the bytes after it. -/
def Obligations.DecodeEncodeAnyMap : Prop :=
  ∀ m : Mnemonic → Byte, OpcAdmissible m → ∀ (i : Instr) (rest : List Byte),
    decodeWith m (encodeWith m i ++ rest) = .ok (i, rest)

/-- The other direction: what decodes to an instruction is the encoding of that instruction, so no two byte
sequences are one instruction. -/
def Obligations.DecodedBytesAreTheEncoding : Prop :=
  ∀ (m : Mnemonic → Byte) (bytes : List Byte) (i : Instr) (rest : List Byte),
    decodeWith m bytes = .ok (i, rest) → bytes = encodeWith m i ++ rest

/-- R78, R79: a first byte decodes exactly if it is one of the 13 values of R74, whatever follows it. -/
def Obligations.DecoderAcceptsThirteenBytes : Prop :=
  ∀ (op a b : Byte) (rest : List Byte),
    (op ∉ [0x82#8, 0x47, 0xA2, 0xA0, 0x45, 0x46, 0x50, 0x11, 0xA7, 0x54, 0x55, 0x56, 0x01] →
      decode (op :: rest) = .error (.unmappedOpcode op)) ∧
    (op ∈ [0x82#8, 0x47, 0xA2, 0xA0, 0x45, 0x46, 0x50, 0x11, 0xA7, 0x54, 0x55, 0x56, 0x01] →
      ∃ i r, decode (op :: a :: b :: rest) = .ok (i, r) ∧ (encode i).head? = some op)

/-- Words written out from the formats of R71 and the table of R74. -/
def Obligations.DecodeWrittenWords : Prop :=
  decode [0b10000010, 0b00000111, 0b11001000] = .ok (.ldi 7 200, []) ∧
  decode [0b01000111, 0b00000101] = .ok (.prn 5, []) ∧
  decode [0b10100010, 0b00000011, 0b00000100] = .ok (.mul 3 4, []) ∧
  decode [0b01000101, 0b00000010] = .ok (.push 2, []) ∧
  decode [0b01010000, 0b00000001] = .ok (.call 1, []) ∧
  decode [0b00010001] = .ok (.ret, []) ∧
  decode [0b10100111, 0b00000000, 0b00000010] = .ok (.cmp 0 2, []) ∧
  decode [0b00000001] = .ok (.hlt, [])

/-! ## The step -/

/-- R101 to R103: where the bytes at `pc`, `pc +8 1`, `pc +8 2` decode to an instruction, the step is the
execution of that instruction and nothing more. -/
def Obligations.StepRunsDecodedInstruction : Prop :=
  ∀ (s : State) (i : Instr) (rest : List Byte), s.run = .running →
    decode [s.memRead s.pc, s.memRead (s.pc + 1), s.memRead (s.pc + 2)] = .ok (i, rest) →
    step s = exec i s

/-- R104: the whole next state, the opcode byte reported as `info`, and no byte read but the opcode byte. The
`info` byte is decision D12 (log 12, R32), the wrap of `pc +8 1` decision D2 (log 2), and which bytes are
mapped decision D1 (log 1). -/
def Obligations.StepOnUnmappedOpcode : Prop :=
  ∀ s : State, s.run = .running → (∀ m : Mnemonic, opc m ≠ s.memRead s.pc) →
    ∃ t, step s = .next t ∧
      t = { s with pc := s.pc + 1, run := .halted (.invalidInstruction (s.memRead s.pc)) } ∧
      (causePorts t).map Prod.snd = some (s.memRead s.pc) ∧ stepAccesses s = [.read s.pc]

/-- R100, R106: a halted machine takes no step (the model answers the fault `halted`, log 13), so a run from
a halted state stays there. Decision D13. -/
def Obligations.HaltedTakesNoStep : Prop :=
  ∀ (s : State) (c : Cause), s.run = .halted c → step s = .fault (.halted c) ∧ ∀ n, runFor n s = s

/-- R100: the step is total on running states, and only on them. -/
def Obligations.StepTotalExactlyWhenRunning : Prop :=
  ∀ s : State, s.run = .running ↔ ∃ t, step s = .next t

/-- R106: the first halted state of a run is its last. -/
def Obligations.HaltIsFinalInRun : Prop :=
  ∀ (s : State) (n k : Nat) (c : Cause), (runFor n s).run = .halted c → runFor (n + k) s = runFor n s

/-- R106, R162: a JMP whose register holds its own address runs for ever, and no fault comes. -/
def Obligations.SelfJumpRunsForEver : Prop :=
  ∀ (s : State) (opA : Byte) (a : Fin 8), s.run = .running → s.memRead s.pc = 0x54 →
    s.memRead (s.pc + 1) = opA → opA.toNat = a → s.readReg a = s.pc →
    (∀ n, runFor n s = s) ∧ SafeRun s

/-- The word that the host places for a test is fetched and run by the very next step (log 18). -/
def Obligations.FetchWordIsRun : Prop :=
  ∀ (s : State) (nbits w : Nat) (i : Instr), decodeTableWord nbits w = some i →
    step (s.withFetchWord nbits w) = exec i (s.withFetchWord nbits w)

/-! ## Invariants and whole-machine rules -/

/-- Every step from every state that meets the invariant leads to one that does: memory stays canonical
within its 256 cells, and `fl` stays at a legal value (R27). -/
def Obligations.StepKeepsInv : Prop :=
  ∀ s t : State, Inv s → step s = .next t → Inv t

/-- R29, R180, R195, R196: the only ways a step halts the machine, and the whole state each leaves.
`UnsupportedOperation` is not among them (R127). -/
def Obligations.HaltsArePreciseAndExplained : Prop :=
  ∀ (s t : State) (c : Cause), step s = .next t → t.run = .halted c →
    (c = .hlt ∧ s.memRead s.pc = opc .hlt ∧ t = { s with run := .halted .hlt }) ∨
    (c = .invalidInstruction (s.memRead s.pc) ∧ (∀ m, opc m ≠ s.memRead s.pc) ∧
      t = { s with pc := s.pc + 1, run := .halted c }) ∨
    (c = .stackOverflow ∧ s.memRead s.pc = opc .push ∧ s.memRead (s.sp - 1) ≠ 0 ∧
      t = { s with run := .halted c }) ∨
    (∃ b : Byte, c = .registerIndexFault b ∧ 7 < b.toNat ∧
      (b = s.memRead (s.pc + 1) ∨ b = s.memRead (s.pc + 2)) ∧ t = { s with run := .halted c })

/-- R40 to R46: the machine built from the six sub-blocks is the machine of the step rule. -/
def Obligations.BlocksRefineStep : Prop :=
  ∀ s : State, blockStep s = step s

/-- R56, R59: memory after a step is memory before it with the writes of the step's access list made in
order. -/
def Obligations.MemoryIsReplayOfAccesses : Prop :=
  ∀ s t : State, step s = .next t → t.mem = replay s.mem (stepAccesses s)

/-- R56, R102: a step depends on no cell but those its access list reads. Put any other memory that agrees
on those cells under the same registers: everything but memory comes out the same, and memory is the other
memory with the same writes. -/
def Obligations.StepReadsOnlyItsAccesses : Prop :=
  ∀ (s t : State) (m : Memory), step s = .next t →
    (∀ e : Byte, Access.read e ∈ stepAccesses s → Memory.read m e.toNat = s.memRead e) →
    step { s with mem := m } = .next { t with mem := replay m (stepAccesses s) }

/-- R210, R212, R215, R216, R231: whatever the host does, from reset on, with whatever image (decisions D13 to
D15, logs 13 to 15; when reset may come, log 25). -/
def Obligations.HostEventsKeepSystemInvariant : Prop :=
  ∀ y : System, Reachable y →
    Inv y.core ∧
    (y.phase = .fresh → y.core = State.reset) ∧
    (y.phase = .loaded → y.core = { State.reset with mem := y.core.mem }) ∧
    (y.phase = .ended ↔ ∃ c, y.core.run = .halted c)

/-- R216, R217: the loader's contract (decision D15, log 15). -/
def Obligations.LaunchStateOfImage : Prop :=
  ∀ image : List Byte,
    (image.length ≤ 256 → ∃ s, launch image = some s ∧ s = { State.reset with mem := s.mem } ∧
      ∀ e : Byte, s.memRead e = image.getD e.toNat 0) ∧
    (256 < image.length → launch image = none)

/-- R51, R55: a store of one byte, read back at once, and everything it leaves alone. -/
def Obligations.MemWriteThenRead : Prop :=
  ∀ (s : State) (a v : Byte),
    (∀ e : Byte, (s.memWrite a v).memRead e = if e = a then v else s.memRead e) ∧
    s.memWrite a v = { s with mem := (s.memWrite a v).mem } ∧
    (Memory.wf s.mem → Memory.wf (s.memWrite a v).mem)

/-- The canonical form of memory is canonical: two memories in it that read alike are the same list. -/
def Obligations.CanonicalMemoryIsUnique : Prop :=
  ∀ m n : Memory, Memory.wf m → Memory.wf n → (∀ a, Memory.read m a = Memory.read n a) → m = n

/-- R22: no register is hardwired or aliased; `x[4]` and `x[7]` are ordinary; an instruction whose register
operands are 0 to 7 is never refused one. -/
def Obligations.RegistersAreOrdinary : Prop :=
  (∀ (s : State) (i : Fin 8) (v : Byte),
    (s.writeReg i v).readReg i = v ∧ (∀ j, j ≠ i → (s.writeReg i v).readReg j = s.readReg j) ∧
    (s.writeReg i v).fl = s.fl ∧ (s.writeReg i v).sp = s.sp) ∧
  (∀ (s : State) (i : Fin 8) (v : Byte) (f : FlagBits),
    (s.setSp v).readReg i = s.readReg i ∧ (s.setFl f).readReg i = s.readReg i) ∧
  (∀ (s t : State) (i : Instr) (b : Byte), i.wf = true → s.run = .running → exec i s = .next t →
    t.run ≠ .halted (.registerIndexFault b))

/-- R28: CMP alone writes `fl`, all of it and whatever it held; JEQ and JNE alone read it, and only for
whether it is `FL_EQ`; no other instruction's effect depends on it or saves it. -/
def Obligations.OnlyCmpWritesFlagsOnlyJumpsReadThem : Prop :=
  (∀ (i : Instr) (s t : State), i.mnemonic ≠ .cmp → exec i s = .next t → t.fl = s.fl) ∧
  (∀ (opA opB : Byte) (s : State) (f : FlagBits), (Instr.cmp opA opB).wf = true →
    exec (.cmp opA opB) { s with fl := f } = exec (.cmp opA opB) s) ∧
  (∀ (i : Instr) (s t : State) (f : FlagBits),
    i.mnemonic ≠ .cmp → i.mnemonic ≠ .jeq → i.mnemonic ≠ .jne →
    exec i s = .next t → exec i { s with fl := f } = .next { t with fl := f }) ∧
  (∀ (i : Instr) (s t : State) (f : FlagBits),
    i.mnemonic = .jeq ∨ i.mnemonic = .jne → (f = flEq ↔ s.fl = flEq) →
    exec i s = .next t → exec i { s with fl := f } = .next { t with fl := f })

/-- R30: PUSH and CALL decrement `sp`, POP and RET increment it, modulo 256; no other instruction changes
it or has an effect that depends on it. -/
def Obligations.OnlyStackInstructionsTouchSp : Prop :=
  (∀ (i : Instr) (s t : State), exec i s = .next t →
    t.sp = s.sp ∨
    ((i.mnemonic = .push ∨ i.mnemonic = .call) ∧ t.sp = s.sp - 1) ∨
    ((i.mnemonic = .pop ∨ i.mnemonic = .ret) ∧ t.sp = s.sp + 1)) ∧
  (∀ (i : Instr) (s t : State) (v : Byte),
    i.mnemonic ≠ .push → i.mnemonic ≠ .call → i.mnemonic ≠ .pop → i.mnemonic ≠ .ret →
    exec i s = .next t → exec i { s with sp := v } = .next { t with sp := v })

/-- R31: PRN alone appends to `out`, one value; nothing is taken from it and no instruction reads it. -/
def Obligations.OnlyPrnAppendsToOut : Prop :=
  ∀ (i : Instr) (s t : State), exec i s = .next t →
    ∃ new : List Byte, t.out = s.out ++ new ∧ new.length ≤ 1 ∧ (i.mnemonic ≠ .prn → new = []) ∧
      ∀ o : List Byte, exec i { s with out := o } = .next { t with out := o ++ new }

/-- R31, R47: the trace grows by exactly the event of the output port, which only the step of a PRN has: the
value of its register. -/
def Obligations.OutIsTraceOfOutputPort : Prop :=
  ∀ s t : State, step s = .next t → t.out = s.out ++ (outPort s).toList ∧
    ∀ v : Byte, outPort s = some v → s.memRead s.pc = 0x47 ∧
      ∃ a : Fin 8, (s.memRead (s.pc + 1)).toNat = a ∧ v = s.readReg a

/-- R31, R112: the rendering of a value (decision D11, log 11): its decimal digits, most significant first,
without a leading zero, in ASCII, then one 0x0A. -/
def Obligations.PrnRendersDecimal : Prop :=
  ∀ v : Byte, ∃ ds : List Nat, ds ≠ [] ∧ (∀ d ∈ ds, d < 10) ∧ (1 < ds.length → ds.head? ≠ some 0) ∧
    ds.foldl (fun n d => 10 * n + d) 0 = v.toNat ∧
    renderPrn v = ds.map (fun d => BitVec.ofNat 8 (0x30 + d)) ++ [0x0A]

/-! ## Faults -/

/-- R195: what each fault leaves, and what the host then sees. `RegisterIndexFault` is decision D6 (log 6), `pc`
after `StackOverflow` decision D7 (log 7), the state after `UnsupportedOperation` decision D21 (log 19), the
code and info ports decision D12 (log 12), the wrap of `pc +8 1` decision D2 (log 2). -/
def Obligations.FaultEntryEffects : Prop :=
  ∀ s : State,
    (∀ op : Byte, s.raise (.invalidInstruction op) =
      { s with pc := s.pc + 1, run := .halted (.invalidInstruction op) }) ∧
    s.raise .stackOverflow = { s with run := .halted .stackOverflow } ∧
    s.raise .unsupportedOperation = { s with run := .halted .unsupportedOperation } ∧
    (∀ b : Byte, s.raise (.registerIndexFault b) = { s with run := .halted (.registerIndexFault b) }) ∧
    (∀ c : Cause, haltedPort (s.raise c) = true ∧ causePorts (s.raise c) = some (c.code, c.info)) ∧
    (∀ (opA : Byte) (a : Fin 8), opA.toNat = a → s.memRead (s.sp - 1) ≠ 0 →
      exec (.push opA) s = .next (s.raise .stackOverflow))

/-- R32 (decision D12, log 12): the codes and `info` bytes, by which the host can tell every cause apart. -/
def Obligations.CausePortsIdentifyCause : Prop :=
  (Cause.code .hlt = 0 ∧ Cause.code .stackOverflow = 2 ∧ Cause.code .unsupportedOperation = 3 ∧
    (∀ b, Cause.code (.invalidInstruction b) = 1 ∧ Cause.info (.invalidInstruction b) = b) ∧
    (∀ b, Cause.code (.registerIndexFault b) = 4 ∧ Cause.info (.registerIndexFault b) = b)) ∧
  ∀ c d : Cause, c.code = d.code → c.info = d.info → c = d

/-- R73, R192 (decisions D6 and D20, log 6): the first register operand byte above 7 halts the machine and
changes nothing else, whatever the stack cell or the flags hold. -/
def Obligations.RegisterIndexFaultFirst : Prop :=
  ∀ (opA opB : Byte) (s : State), 7 < opA.toNat →
    (∀ i ∈ [Instr.ldi opA opB, .prn opA, .mul opA opB, .add opA opB, .push opA, .pop opA, .call opA,
        .cmp opA opB, .jmp opA, .jeq opA, .jne opA],
      exec i s = .next { s with run := .halted (.registerIndexFault opA) }) ∧
    (∀ opC : Byte, opC.toNat ≤ 7 →
      ∀ i ∈ [Instr.mul opC opA, .add opC opA, .cmp opC opA],
        exec i s = .next { s with run := .halted (.registerIndexFault opA) })

/-! ## The ALU -/

/-- R121, R122: the exact sum and product modulo 256. -/
def Obligations.AluArithmetic : Prop :=
  ∀ va vb : Byte,
    (∃ r, alu .add va vb = some r ∧ r.toNat = (va.toNat + vb.toNat) % 256) ∧
    (∃ r, alu .multiply va vb = some r ∧ r.toNat = (va.toNat * vb.toNat) % 256)

/-- R123 to R126: bit by bit; NOT is the NAND of its two operands. -/
def Obligations.AluBitwise : Prop :=
  ∀ va vb : Byte, ∃ rAnd rOr rXor rNot : Byte,
    alu .and va vb = some rAnd ∧ alu .or va vb = some rOr ∧ alu .xor va vb = some rXor ∧
    alu .not va vb = some rNot ∧ rNot.toNat = 0xFF - rAnd.toNat ∧
    ∀ i : Nat, i < 8 →
      rAnd.getLsbD i = (va.getLsbD i && vb.getLsbD i) ∧
      rOr.getLsbD i = (va.getLsbD i || vb.getLsbD i) ∧
      rXor.getLsbD i = (va.getLsbD i ^^ vb.getLsbD i) ∧
      rNot.getLsbD i = !(va.getLsbD i && vb.getLsbD i)

/-- R127 (decision D21, log 19): an operation outside the six raises `UnsupportedOperation`, nothing is
written and `pc` stays; the six never do. -/
def Obligations.AluUnsupportedRaises : Prop :=
  ∀ (opA opB : Byte) (s : State), opA.toNat ≤ 7 → opB.toNat ≤ 7 →
    aluInstr .unrecognised opA opB s = { s with run := .halted .unsupportedOperation } ∧
    ∀ op : AluOp, op ≠ .unrecognised → (aluInstr op opA opB s).run = s.run

/-! ## What each instruction does -/

/-- R110. -/
def Obligations.LdiResult : Prop :=
  ∀ (opA opB : Byte) (s : State),
    (∀ a : Fin 8, opA.toNat = a →
      exec (.ldi opA opB) s = .next { s with x := s.x.set a opB, pc := s.pc + 3 }) ∧
    (7 < opA.toNat → exec (.ldi opA opB) s = .next { s with run := .halted (.registerIndexFault opA) }) ∧
    (∀ rest, decode (0x82 :: opA :: opB :: rest) = .ok (.ldi opA opB, rest))

/-- R112. -/
def Obligations.PrnResult : Prop :=
  ∀ (opA : Byte) (s : State),
    (∀ a : Fin 8, opA.toNat = a →
      exec (.prn opA) s = .next { s with out := s.out ++ [s.readReg a], pc := s.pc + 2 }) ∧
    (7 < opA.toNat → exec (.prn opA) s = .next { s with run := .halted (.registerIndexFault opA) }) ∧
    (∀ rest, decode (0x47 :: opA :: rest) = .ok (.prn opA, rest))

/-- R130. -/
def Obligations.MulResult : Prop :=
  ∀ (opA opB : Byte) (s : State),
    (∀ a b : Fin 8, opA.toNat = a → opB.toNat = b →
      exec (.mul opA opB) s = .next { s with
        x := s.x.set a (BitVec.ofNat 8 ((s.readReg a).toNat * (s.readReg b).toNat)), pc := s.pc + 3 }) ∧
    (7 < opA.toNat → exec (.mul opA opB) s = .next { s with run := .halted (.registerIndexFault opA) }) ∧
    (opA.toNat ≤ 7 → 7 < opB.toNat →
      exec (.mul opA opB) s = .next { s with run := .halted (.registerIndexFault opB) }) ∧
    (∀ rest, decode (0xA2 :: opA :: opB :: rest) = .ok (.mul opA opB, rest))

/-- R131. -/
def Obligations.AddResult : Prop :=
  ∀ (opA opB : Byte) (s : State),
    (∀ a b : Fin 8, opA.toNat = a → opB.toNat = b →
      exec (.add opA opB) s = .next { s with
        x := s.x.set a (BitVec.ofNat 8 ((s.readReg a).toNat + (s.readReg b).toNat)), pc := s.pc + 3 }) ∧
    (7 < opA.toNat → exec (.add opA opB) s = .next { s with run := .halted (.registerIndexFault opA) }) ∧
    (opA.toNat ≤ 7 → 7 < opB.toNat →
      exec (.add opA opB) s = .next { s with run := .halted (.registerIndexFault opB) }) ∧
    (∀ rest, decode (0xA0 :: opA :: opB :: rest) = .ok (.add opA opB, rest))

/-- R140. `pc` after StackOverflow is decision D7 (log 7). -/
def Obligations.PushResult : Prop :=
  ∀ (opA : Byte) (s : State),
    (∀ a : Fin 8, opA.toNat = a → s.memRead (s.sp - 1) = 0 →
      exec (.push opA) s = .next { s with
        sp := s.sp - 1, mem := Memory.write s.mem (s.sp - 1).toNat (s.readReg a), pc := s.pc + 2 }) ∧
    (opA.toNat ≤ 7 → s.memRead (s.sp - 1) ≠ 0 →
      exec (.push opA) s = .next { s with run := .halted .stackOverflow }) ∧
    (7 < opA.toNat → exec (.push opA) s = .next { s with run := .halted (.registerIndexFault opA) }) ∧
    (∀ rest, decode (0x45 :: opA :: rest) = .ok (.push opA, rest))

/-- R143. -/
def Obligations.PopResult : Prop :=
  ∀ (opA : Byte) (s : State),
    (∀ a : Fin 8, opA.toNat = a →
      exec (.pop opA) s = .next { s with
        x := s.x.set a (s.memRead s.sp), mem := Memory.write s.mem s.sp.toNat 0, sp := s.sp + 1,
        pc := s.pc + 2 }) ∧
    (7 < opA.toNat → exec (.pop opA) s = .next { s with run := .halted (.registerIndexFault opA) }) ∧
    (∀ rest, decode (0x46 :: opA :: rest) = .ok (.pop opA, rest))

/-- R150. That the cell is not checked is decision D8 (log 8). -/
def Obligations.CallResult : Prop :=
  ∀ (opA : Byte) (s : State),
    (∀ a : Fin 8, opA.toNat = a →
      exec (.call opA) s = .next { s with
        sp := s.sp - 1, mem := Memory.write s.mem (s.sp - 1).toNat (s.pc + 2), pc := s.readReg a }) ∧
    (7 < opA.toNat → exec (.call opA) s = .next { s with run := .halted (.registerIndexFault opA) }) ∧
    (∀ rest, decode (0x50 :: opA :: rest) = .ok (.call opA, rest))

/-- R152. That the cell is not zeroed is decision D9 (log 9). -/
def Obligations.RetResult : Prop :=
  (∀ s : State, exec .ret s = .next { s with pc := s.memRead s.sp, sp := s.sp + 1 }) ∧
    ∀ rest, decode (0x11 :: rest) = .ok (.ret, rest)

/-- R5: the two parameters at their other values: a RET that zeroes its cell, a CALL that checks it. -/
def Obligations.CallRetParameters : Prop :=
  (∀ s : State, retWith true s =
    { s with pc := s.memRead s.sp, mem := Memory.write s.mem s.sp.toNat 0, sp := s.sp + 1 }) ∧
  (∀ (opA : Byte) (s : State), opA.toNat ≤ 7 →
    (s.memRead (s.sp - 1) ≠ 0 → callWith true opA s = { s with run := .halted .stackOverflow }) ∧
    (s.memRead (s.sp - 1) = 0 → callWith true opA s = callWith false opA s))

/-- R160. Which operand "greater" is about is decision D5 (log 5), the bit positions decision D4 (log 4). -/
def Obligations.CmpResult : Prop :=
  ∀ (opA opB : Byte) (s : State),
    (∀ a b : Fin 8, opA.toNat = a → opB.toNat = b →
      exec (.cmp opA opB) s = .next { s with
        fl := if s.readReg a = s.readReg b then 0b001
              else if (s.readReg a).toNat > (s.readReg b).toNat then 0b010 else 0b100,
        pc := s.pc + 3 }) ∧
    (7 < opA.toNat → exec (.cmp opA opB) s = .next { s with run := .halted (.registerIndexFault opA) }) ∧
    (opA.toNat ≤ 7 → 7 < opB.toNat →
      exec (.cmp opA opB) s = .next { s with run := .halted (.registerIndexFault opB) }) ∧
    (∀ rest, decode (0xA7 :: opA :: opB :: rest) = .ok (.cmp opA opB, rest))

/-- R162. -/
def Obligations.JmpResult : Prop :=
  ∀ (opA : Byte) (s : State),
    (∀ a : Fin 8, opA.toNat = a → exec (.jmp opA) s = .next { s with pc := s.readReg a }) ∧
    (7 < opA.toNat → exec (.jmp opA) s = .next { s with run := .halted (.registerIndexFault opA) }) ∧
    (∀ rest, decode (0x54 :: opA :: rest) = .ok (.jmp opA, rest))

/-- R163. That the operand is checked when the jump is not taken is decision D10 (log 10). -/
def Obligations.JeqResult : Prop :=
  ∀ (opA : Byte) (s : State),
    (∀ a : Fin 8, opA.toNat = a →
      exec (.jeq opA) s = .next { s with pc := if s.fl = 0b001 then s.readReg a else s.pc + 2 }) ∧
    (7 < opA.toNat → exec (.jeq opA) s = .next { s with run := .halted (.registerIndexFault opA) }) ∧
    (∀ rest, decode (0x55 :: opA :: rest) = .ok (.jeq opA, rest))

/-- R164. -/
def Obligations.JneResult : Prop :=
  ∀ (opA : Byte) (s : State),
    (∀ a : Fin 8, opA.toNat = a →
      exec (.jne opA) s = .next { s with pc := if s.fl = 0b001 then s.pc + 2 else s.readReg a }) ∧
    (7 < opA.toNat → exec (.jne opA) s = .next { s with run := .halted (.registerIndexFault opA) }) ∧
    (∀ rest, decode (0x56 :: opA :: rest) = .ok (.jne opA, rest))

/-- R105. -/
def Obligations.HltResult : Prop :=
  (∀ s : State, exec .hlt s = .next { s with run := .halted .hlt }) ∧
    ∀ rest, decode (0x01 :: rest) = .ok (.hlt, rest)

/-! ## Frames -/

/-- LDI, MUL and ADD (R23, R28, R56): every register but `x[a]`, `sp`, `fl`, `out` and every byte of memory
stay; the machine runs on unless a register operand faults. -/
def Obligations.LdiMulAddFrame : Prop :=
  ∀ (opA opB : Byte) (i : Instr) (s t : State),
    i ∈ [Instr.ldi opA opB, .mul opA opB, .add opA opB] → exec i s = .next t →
    (∀ r : Fin 8, opA.toNat ≠ r → t.readReg r = s.readReg r) ∧ t.sp = s.sp ∧ t.fl = s.fl ∧ t.out = s.out ∧
    (∀ e : Byte, t.memRead e = s.memRead e) ∧ (i.wf = true → t.run = s.run) ∧
    (i.wf = false → ∀ r : Fin 8, t.readReg r = s.readReg r)

/-- PRN, CMP, JMP, JEQ, JNE and HLT write no register and no memory: every register, `sp` and every byte of
memory stay; `fl` stays but for CMP, `out` but for PRN, `run` but for HLT and a register operand fault. -/
def Obligations.NoRegisterNoStoreFrame : Prop :=
  ∀ (opA opB : Byte) (i : Instr) (s t : State),
    i ∈ [Instr.prn opA, .cmp opA opB, .jmp opA, .jeq opA, .jne opA, .hlt] → exec i s = .next t →
    (∀ r : Fin 8, t.readReg r = s.readReg r) ∧ t.sp = s.sp ∧ (∀ e : Byte, t.memRead e = s.memRead e) ∧
    (i.mnemonic ≠ .cmp → t.fl = s.fl) ∧ (i.mnemonic ≠ .prn → t.out = s.out) ∧
    (i.mnemonic ≠ .hlt → i.wf = true → t.run = s.run)

/-- PUSH and CALL store one byte, at `sp -8 1`, and update `sp`: every register, `fl`, `out` and every byte
outside that cell stay; where the instruction faults, every byte and `sp` stay. -/
def Obligations.PushCallFrame : Prop :=
  ∀ (opA : Byte) (i : Instr) (s t : State), i ∈ [Instr.push opA, .call opA] → exec i s = .next t →
    (∀ r : Fin 8, t.readReg r = s.readReg r) ∧ t.fl = s.fl ∧ t.out = s.out ∧
    (∀ a : Byte, a = s.sp - 1 → ∀ e : Byte, e ≠ a → t.memRead e = s.memRead e) ∧
    (t.run ≠ s.run → t.sp = s.sp ∧ t.pc = s.pc ∧ ∀ e : Byte, t.memRead e = s.memRead e)

/-- POP stores one byte, at `sp`, and updates `sp` and `x[a]`: every other register, `fl`, `out` and every
byte outside that cell stay; where the operand faults, every register, every byte and `sp` stay. -/
def Obligations.PopFrame : Prop :=
  ∀ (opA : Byte) (s t : State), exec (.pop opA) s = .next t →
    (∀ r : Fin 8, opA.toNat ≠ r → t.readReg r = s.readReg r) ∧ t.fl = s.fl ∧ t.out = s.out ∧
    (∀ a : Byte, a = s.sp → ∀ e : Byte, e ≠ a → t.memRead e = s.memRead e) ∧
    (opA.toNat ≤ 7 → t.run = s.run) ∧
    (7 < opA.toNat → t.sp = s.sp ∧ t.pc = s.pc ∧ ∀ e : Byte, t.memRead e = s.memRead e)

/-- RET stores nothing (decision D9, log 9) and updates `sp`: every register, `fl`, `out`, `run` and every
byte of memory stay. -/
def Obligations.RetFrame : Prop :=
  ∀ s t : State, exec .ret s = .next t →
    (∀ r : Fin 8, t.readReg r = s.readReg r) ∧ t.fl = s.fl ∧ t.out = s.out ∧ t.run = s.run ∧
    ∀ e : Byte, t.memRead e = s.memRead e

/-! ## Laws of pairs -/

/-- R145: PUSH then POP copies a register, restores `sp`, and leaves every byte of memory as it was. -/
def Obligations.PushPopRoundTrip : Prop :=
  ∀ (s : State) (opA opB : Byte) (a b : Fin 8), opA.toNat = a → opB.toNat = b →
    s.memRead (s.sp - 1) = 0 →
    ∃ t u, exec (.push opA) s = .next t ∧ exec (.pop opB) t = .next u ∧
      u.readReg b = s.readReg a ∧ (∀ r, r ≠ b → u.readReg r = s.readReg r) ∧
      u.sp = s.sp ∧ u.pc = s.pc + 4 ∧ u.fl = s.fl ∧ u.run = s.run ∧
      ∀ e : Byte, u.memRead e = s.memRead e

/-- R154: after a CALL, a RET in any state that has `sp` and the return cell as the CALL left them goes to
the byte after the CALL with `sp` as it was before it. -/
def Obligations.CallThenRetReturns : Prop :=
  ∀ (s t u : State) (opA : Byte), opA.toNat ≤ 7 → exec (.call opA) s = .next t →
    u.sp = t.sp → u.memRead t.sp = t.memRead t.sp →
    ∃ v, exec .ret u = .next v ∧ v.pc = s.pc + 2 ∧ v.sp = s.sp

/-- R222 (decision D9, log 9): a PUSH at the depth where a CALL and its RET have just been faults, unless
the return address was 0x00, in which case it succeeds. -/
def Obligations.StaleReturnAddressBlocksPush : Prop :=
  ∀ (s : State) (opA opB : Byte), opA.toNat ≤ 7 → opB.toNat ≤ 7 →
    ∃ t u, exec (.call opA) s = .next t ∧ exec .ret t = .next u ∧
      (s.pc + 2 ≠ 0 → exec (.push opB) u = .next { u with run := .halted .stackOverflow }) ∧
      (s.pc + 2 = 0 → ∃ v, exec (.push opB) u = .next v ∧ v.run = s.run ∧ v.sp = s.sp - 1)

/-- R166: after a CMP, and any number of instructions that leave `fl` as it left it, JEQ jumps and JNE falls
through exactly if the values compared were equal. -/
def Obligations.CmpDecidesJumps : Prop :=
  ∀ (s t u : State) (opA opB opC : Byte) (a b c : Fin 8),
    opA.toNat = a → opB.toNat = b → opC.toNat = c →
    exec (.cmp opA opB) s = .next t → u.fl = t.fl →
    (s.readReg a = s.readReg b →
      exec (.jeq opC) u = .next { u with pc := u.readReg c } ∧
      exec (.jne opC) u = .next { u with pc := u.pc + 2 }) ∧
    (s.readReg a ≠ s.readReg b →
      exec (.jne opC) u = .next { u with pc := u.readReg c } ∧
      exec (.jeq opC) u = .next { u with pc := u.pc + 2 })

/-! ## The host's events -/

/-- R210, R212, R215, R216, R231 (decisions D13 to D15, logs 13 to 15): reset meets the system invariant, and
every event from EVERY system that meets it leads to one that does. -/
def Obligations.HostEventKeepsSystemInv : Prop :=
  SystemInv System.init ∧
    ∀ (y z : System) (e : HostEvent), SystemInv y → y.event e = some z → SystemInv z

/-- R231: during a run the host can do nothing to the core, which only steps (that reset too is shut out then is
the model's reading, log 25); after the halt nothing happens but a reset; before `run` no step happens. -/
def Obligations.HostMayNotDisturbRun : Prop :=
  ∀ (y z : System) (e : HostEvent), y.event e = some z →
    (y.phase = .started → e = .step ∧ step y.core = .next z.core ∧
      (z.phase = .ended ↔ ∃ c, z.core.run = .halted c)) ∧
    (y.phase = .ended → e = .reset ∧ z = System.init) ∧
    (y.phase = .fresh ∨ y.phase = .loaded → e ≠ .step)
end

