-- ==== Sys2Proof/Laws/Decode.lean ====
section
/-! SUPPORT. The opcode map and its lookup, and the lengths of formats. -/

namespace Sys2Proof

theorem Mnemonic.mem_all (m : Mnemonic) : m ∈ Mnemonic.all := by cases m <;> decide

/-- The lookup answers only mnemonics whose opcode byte it was given. -/
theorem lookupOpcode_some {f : Mnemonic → Byte} {op : Byte} {m : Mnemonic} (h : lookupOpcode f op = some m) :
    f m = op := by simpa using List.find?_some h

/-- The lookup fails on exactly the bytes that are no opcode. -/
theorem lookupOpcode_none {f : Mnemonic → Byte} {op : Byte} :
    lookupOpcode f op = none ↔ ∀ m, f m ≠ op := by
  simp [lookupOpcode, List.find?_eq_none, Mnemonic.mem_all]

/-- Under a map with distinct values the lookup finds each instruction by its own byte. -/
theorem lookupOpcode_self {f : Mnemonic → Byte} (hf : ∀ i j, f i = f j → i = j) (m : Mnemonic) :
    lookupOpcode f (f m) = some m := by
  cases h : lookupOpcode f (f m) with
  | none => exact absurd rfl (lookupOpcode_none.1 h m)
  | some n => rw [hf n m (lookupOpcode_some h)]

/-- The operand bytes of an instruction are as many as its format has. -/
theorem length_operandBytes (i : Instr) : (operandBytes i).length = operandCount i.mnemonic := by
  cases i <;> rfl

end Sys2Proof
end

