-- ==== Sys2Proof/Laws/State.lean ====
section
/-! SUPPORT. One lemma per field per update of State, true by rfl, so that no later proof unfolds a record
update; and what fault entry does to each field. -/

namespace Sys2Proof.Machine

@[simp] theorem State.writeReg_x (s : State) (i : Fin Config.nreg) (v : Byte) : (s.writeReg i v).x = s.x.set i v := rfl
@[simp] theorem State.writeReg_pc (s : State) (i : Fin Config.nreg) (v : Byte) : (s.writeReg i v).pc = s.pc := rfl
@[simp] theorem State.writeReg_sp (s : State) (i : Fin Config.nreg) (v : Byte) : (s.writeReg i v).sp = s.sp := rfl
@[simp] theorem State.writeReg_fl (s : State) (i : Fin Config.nreg) (v : Byte) : (s.writeReg i v).fl = s.fl := rfl
@[simp] theorem State.writeReg_mem (s : State) (i : Fin Config.nreg) (v : Byte) : (s.writeReg i v).mem = s.mem := rfl
@[simp] theorem State.writeReg_run (s : State) (i : Fin Config.nreg) (v : Byte) : (s.writeReg i v).run = s.run := rfl
@[simp] theorem State.writeReg_out (s : State) (i : Fin Config.nreg) (v : Byte) : (s.writeReg i v).out = s.out := rfl

@[simp] theorem State.setPc_x (s : State) (v : Byte) : (s.setPc v).x = s.x := rfl
@[simp] theorem State.setPc_pc (s : State) (v : Byte) : (s.setPc v).pc = v := rfl
@[simp] theorem State.setPc_sp (s : State) (v : Byte) : (s.setPc v).sp = s.sp := rfl
@[simp] theorem State.setPc_fl (s : State) (v : Byte) : (s.setPc v).fl = s.fl := rfl
@[simp] theorem State.setPc_mem (s : State) (v : Byte) : (s.setPc v).mem = s.mem := rfl
@[simp] theorem State.setPc_run (s : State) (v : Byte) : (s.setPc v).run = s.run := rfl
@[simp] theorem State.setPc_out (s : State) (v : Byte) : (s.setPc v).out = s.out := rfl

@[simp] theorem State.advance_x (s : State) (n : Nat) : (s.advance n).x = s.x := rfl
@[simp] theorem State.advance_pc (s : State) (n : Nat) : (s.advance n).pc = s.pc + trunc8 n := rfl
@[simp] theorem State.advance_sp (s : State) (n : Nat) : (s.advance n).sp = s.sp := rfl
@[simp] theorem State.advance_fl (s : State) (n : Nat) : (s.advance n).fl = s.fl := rfl
@[simp] theorem State.advance_mem (s : State) (n : Nat) : (s.advance n).mem = s.mem := rfl
@[simp] theorem State.advance_run (s : State) (n : Nat) : (s.advance n).run = s.run := rfl
@[simp] theorem State.advance_out (s : State) (n : Nat) : (s.advance n).out = s.out := rfl

@[simp] theorem State.setSp_x (s : State) (v : Byte) : (s.setSp v).x = s.x := rfl
@[simp] theorem State.setSp_pc (s : State) (v : Byte) : (s.setSp v).pc = s.pc := rfl
@[simp] theorem State.setSp_sp (s : State) (v : Byte) : (s.setSp v).sp = v := rfl
@[simp] theorem State.setSp_fl (s : State) (v : Byte) : (s.setSp v).fl = s.fl := rfl
@[simp] theorem State.setSp_mem (s : State) (v : Byte) : (s.setSp v).mem = s.mem := rfl
@[simp] theorem State.setSp_run (s : State) (v : Byte) : (s.setSp v).run = s.run := rfl
@[simp] theorem State.setSp_out (s : State) (v : Byte) : (s.setSp v).out = s.out := rfl

@[simp] theorem State.setFl_x (s : State) (v : FlagBits) : (s.setFl v).x = s.x := rfl
@[simp] theorem State.setFl_pc (s : State) (v : FlagBits) : (s.setFl v).pc = s.pc := rfl
@[simp] theorem State.setFl_sp (s : State) (v : FlagBits) : (s.setFl v).sp = s.sp := rfl
@[simp] theorem State.setFl_fl (s : State) (v : FlagBits) : (s.setFl v).fl = v := rfl
@[simp] theorem State.setFl_mem (s : State) (v : FlagBits) : (s.setFl v).mem = s.mem := rfl
@[simp] theorem State.setFl_run (s : State) (v : FlagBits) : (s.setFl v).run = s.run := rfl
@[simp] theorem State.setFl_out (s : State) (v : FlagBits) : (s.setFl v).out = s.out := rfl

@[simp] theorem State.emit_x (s : State) (v : Byte) : (s.emit v).x = s.x := rfl
@[simp] theorem State.emit_pc (s : State) (v : Byte) : (s.emit v).pc = s.pc := rfl
@[simp] theorem State.emit_sp (s : State) (v : Byte) : (s.emit v).sp = s.sp := rfl
@[simp] theorem State.emit_fl (s : State) (v : Byte) : (s.emit v).fl = s.fl := rfl
@[simp] theorem State.emit_mem (s : State) (v : Byte) : (s.emit v).mem = s.mem := rfl
@[simp] theorem State.emit_run (s : State) (v : Byte) : (s.emit v).run = s.run := rfl
@[simp] theorem State.emit_out (s : State) (v : Byte) : (s.emit v).out = s.out ++ [v] := rfl

@[simp] theorem State.halt_x (s : State) (c : Cause) : (s.halt c).x = s.x := rfl
@[simp] theorem State.halt_pc (s : State) (c : Cause) : (s.halt c).pc = s.pc := rfl
@[simp] theorem State.halt_sp (s : State) (c : Cause) : (s.halt c).sp = s.sp := rfl
@[simp] theorem State.halt_fl (s : State) (c : Cause) : (s.halt c).fl = s.fl := rfl
@[simp] theorem State.halt_mem (s : State) (c : Cause) : (s.halt c).mem = s.mem := rfl
@[simp] theorem State.halt_run (s : State) (c : Cause) : (s.halt c).run = .halted c := rfl
@[simp] theorem State.halt_out (s : State) (c : Cause) : (s.halt c).out = s.out := rfl

@[simp] theorem State.memWrite_x (s : State) (a v : Byte) : (s.memWrite a v).x = s.x := rfl
@[simp] theorem State.memWrite_pc (s : State) (a v : Byte) : (s.memWrite a v).pc = s.pc := rfl
@[simp] theorem State.memWrite_sp (s : State) (a v : Byte) : (s.memWrite a v).sp = s.sp := rfl
@[simp] theorem State.memWrite_fl (s : State) (a v : Byte) : (s.memWrite a v).fl = s.fl := rfl
@[simp] theorem State.memWrite_mem (s : State) (a v : Byte) : (s.memWrite a v).mem = Memory.write s.mem a.toNat v := rfl
@[simp] theorem State.memWrite_run (s : State) (a v : Byte) : (s.memWrite a v).run = s.run := rfl
@[simp] theorem State.memWrite_out (s : State) (a v : Byte) : (s.memWrite a v).out = s.out := rfl

@[simp] theorem State.raise_x (s : State) (c : Cause) : (s.raise c).x = s.x := by cases c <;> rfl
@[simp] theorem State.raise_sp (s : State) (c : Cause) : (s.raise c).sp = s.sp := by cases c <;> rfl
@[simp] theorem State.raise_fl (s : State) (c : Cause) : (s.raise c).fl = s.fl := by cases c <;> rfl
@[simp] theorem State.raise_mem (s : State) (c : Cause) : (s.raise c).mem = s.mem := by cases c <;> rfl
@[simp] theorem State.raise_out (s : State) (c : Cause) : (s.raise c).out = s.out := by cases c <;> rfl
@[simp] theorem State.raise_run (s : State) (c : Cause) : (s.raise c).run = .halted c := by cases c <;> rfl

/-- `pc` moves on fault entry for `InvalidInstruction` alone (R104, R195). -/
theorem State.raise_pc (s : State) (c : Cause) :
    (s.raise c).pc = (match c with | .invalidInstruction _ => s.pc + 1 | _ => s.pc) := by cases c <;> rfl

/-! ## Reads after updates -/

@[simp] theorem State.memRead_writeReg (s : State) (i : Fin Config.nreg) (v : Byte) (e : Byte) : (s.writeReg i v).memRead e = s.memRead e := rfl
@[simp] theorem State.readReg_setPc (s : State) (v : Byte) (j : Fin Config.nreg) : (s.setPc v).readReg j = s.readReg j := rfl
@[simp] theorem State.memRead_setPc (s : State) (v : Byte) (e : Byte) : (s.setPc v).memRead e = s.memRead e := rfl
@[simp] theorem State.readReg_advance (s : State) (n : Nat) (j : Fin Config.nreg) : (s.advance n).readReg j = s.readReg j := rfl
@[simp] theorem State.memRead_advance (s : State) (n : Nat) (e : Byte) : (s.advance n).memRead e = s.memRead e := rfl
@[simp] theorem State.readReg_setSp (s : State) (v : Byte) (j : Fin Config.nreg) : (s.setSp v).readReg j = s.readReg j := rfl
@[simp] theorem State.memRead_setSp (s : State) (v : Byte) (e : Byte) : (s.setSp v).memRead e = s.memRead e := rfl
@[simp] theorem State.readReg_setFl (s : State) (v : FlagBits) (j : Fin Config.nreg) : (s.setFl v).readReg j = s.readReg j := rfl
@[simp] theorem State.memRead_setFl (s : State) (v : FlagBits) (e : Byte) : (s.setFl v).memRead e = s.memRead e := rfl
@[simp] theorem State.readReg_emit (s : State) (v : Byte) (j : Fin Config.nreg) : (s.emit v).readReg j = s.readReg j := rfl
@[simp] theorem State.memRead_emit (s : State) (v : Byte) (e : Byte) : (s.emit v).memRead e = s.memRead e := rfl
@[simp] theorem State.readReg_halt (s : State) (c : Cause) (j : Fin Config.nreg) : (s.halt c).readReg j = s.readReg j := rfl
@[simp] theorem State.memRead_halt (s : State) (c : Cause) (e : Byte) : (s.halt c).memRead e = s.memRead e := rfl
@[simp] theorem State.readReg_memWrite (s : State) (a v : Byte) (j : Fin Config.nreg) : (s.memWrite a v).readReg j = s.readReg j := rfl

@[simp] theorem State.readReg_raise (s : State) (c : Cause) (j : Fin Config.nreg) :
    (s.raise c).readReg j = s.readReg j := by cases c <;> rfl

@[simp] theorem State.memRead_raise (s : State) (c : Cause) (e : Byte) :
    (s.raise c).memRead e = s.memRead e := by cases c <;> rfl

/-- A register reads as the last value written to it (10_state.md rule R23). -/
@[simp] theorem State.readReg_writeReg_self (s : State) (i : Fin Config.nreg) (v : Byte) :
    (s.writeReg i v).readReg i = v := by simp [State.readReg]

/-- Writing a register leaves the others as they were. -/
theorem State.readReg_writeReg_ne (s : State) {i j : Fin Config.nreg} (v : Byte) (h : j ≠ i) :
    (s.writeReg i v).readReg j = s.readReg j := by
  have : (i : Nat) ≠ j := fun e => h (Fin.ext e.symm)
  simp [State.readReg, this]

@[simp] theorem State.setSp_setSp (s : State) (v w : Byte) : (s.setSp v).setSp w = s.setSp w := rfl

@[simp] theorem State.setSp_self (s : State) : s.setSp s.sp = s := rfl

end Sys2Proof.Machine
end

