-- ==== Sys2Proof/Laws/Ops.lean ====
section
/-! SUPPORT. What each shared operation can do, said once: later proofs cite these and do not unfold the
operation. -/

namespace Sys2Proof.Machine

/-! ## Register operands -/

theorem regByteOk_iff (b : Byte) : regByteOk b = true ↔ b.toNat < Config.nreg := by
  simp [regByteOk, BitVec.le_def, Config.nreg]
  omega

theorem regIndex_eq_some {b : Byte} (h : b.toNat < Config.nreg) : regIndex b = some ⟨b.toNat, h⟩ := by
  simp [regIndex, h]

theorem regIndex_eq_none {b : Byte} (h : ¬ b.toNat < Config.nreg) : regIndex b = none := by
  simp [regIndex, h]

theorem withReg_of_lt {opA : Byte} {s : State} {k : Fin Config.nreg → State} (h : opA.toNat < Config.nreg) :
    withReg opA s k = k ⟨opA.toNat, h⟩ := by
  simp [withReg, regIndex_eq_some h]

theorem withReg_of_not_lt {opA : Byte} {s : State} {k : Fin Config.nreg → State}
    (h : ¬ opA.toNat < Config.nreg) : withReg opA s k = s.halt (.registerIndexFault opA) := by
  simp [withReg, regIndex_eq_none h, State.raise]

/-- A register operand either names a register or raises `RegisterIndexFault`. -/
theorem withReg_cases (opA : Byte) (s : State) (k : Fin Config.nreg → State) :
    (∃ a : Fin Config.nreg, opA.toNat = a ∧ withReg opA s k = k a) ∨
      (¬ opA.toNat < Config.nreg ∧ withReg opA s k = s.halt (.registerIndexFault opA)) := by
  by_cases h : opA.toNat < Config.nreg
  · exact .inl ⟨⟨opA.toNat, h⟩, rfl, withReg_of_lt h⟩
  · exact .inr ⟨h, withReg_of_not_lt h⟩

theorem withRegs_of_lt {opA opB : Byte} {s : State} {k : Fin Config.nreg → Fin Config.nreg → State}
    (ha : opA.toNat < Config.nreg) (hb : opB.toNat < Config.nreg) :
    withRegs opA opB s k = k ⟨opA.toNat, ha⟩ ⟨opB.toNat, hb⟩ := by
  rw [withRegs, withReg_of_lt ha, withReg_of_lt hb]

/-- Two register operands: both name registers, or the first that does not raises the fault. -/
theorem withRegs_cases (opA opB : Byte) (s : State) (k : Fin Config.nreg → Fin Config.nreg → State) :
    (∃ a b : Fin Config.nreg, opA.toNat = a ∧ opB.toNat = b ∧ withRegs opA opB s k = k a b) ∨
      (∃ c : Byte, ¬ c.toNat < Config.nreg ∧ (c = opA ∨ opA.toNat < Config.nreg ∧ c = opB) ∧
        withRegs opA opB s k = s.halt (.registerIndexFault c)) := by
  by_cases ha : opA.toNat < Config.nreg
  · by_cases hb : opB.toNat < Config.nreg
    · exact .inl ⟨_, _, rfl, rfl, withRegs_of_lt ha hb⟩
    · exact .inr ⟨opB, hb, .inr ⟨ha, rfl⟩, by rw [withRegs, withReg_of_lt ha, withReg_of_not_lt hb]⟩
  · exact .inr ⟨opA, ha, .inl rfl, by rw [withRegs, withReg_of_not_lt ha]⟩

/-! ## The stack -/

/-- A push goes on with `sp` decremented and the byte stored there, or, only where the cell is checked and
is not zero, halts with nothing else changed. -/
theorem stackPush_eq (checks : Bool) (v : Byte) (s : State) (k : State → State) :
    stackPush checks v s k =
      if checks = true ∧ s.memRead (s.sp - 1) ≠ 0 then s.halt .stackOverflow
      else k ((s.setSp (s.sp - 1)).memWrite (s.sp - 1) v) := by
  simp [stackPush, State.raise]

/-- A pop goes on with the byte at `sp`, `sp` incremented, and the cell zeroed where the instruction does so. -/
theorem stackPop_eq (clears : Bool) (s : State) (k : Byte → State → State) :
    stackPop clears s k =
      k (s.memRead s.sp) ((if clears = true then s.memWrite s.sp 0 else s).setSp (s.sp + 1)) := rfl

/-! ## Flags -/

/-- The comparator answers one of three legal values, by the unsigned order of its operands. -/
theorem compareFlags_cases (va vb : Byte) :
    (va = vb ∧ compareFlags va vb = flEq) ∨ (vb.toNat < va.toNat ∧ compareFlags va vb = flGt) ∨
      (va.toNat < vb.toNat ∧ compareFlags va vb = flLt) := by
  unfold compareFlags
  by_cases h : va = vb
  · exact .inl ⟨h, by simp [h]⟩
  · have hn : va.toNat ≠ vb.toNat := fun e => h (BitVec.eq_of_toNat_eq e)
    by_cases hg : vb.toNat < va.toNat
    · exact .inr (.inl ⟨hg, by simp [h, BitVec.lt_def, hg]⟩)
    · exact .inr (.inr ⟨by omega, by simp [h, BitVec.lt_def, hg]⟩)

theorem compareFlags_legal (va vb : Byte) : flLegal (compareFlags va vb) := by
  rcases compareFlags_cases va vb with ⟨_, h⟩ | ⟨_, h⟩ | ⟨_, h⟩ <;> simp [flLegal, h]

theorem isEqual_iff (fl : FlagBits) : isEqual fl = true ↔ fl = flEq := by simp [isEqual]

/-! ## Instructions of one shape -/

/-- An ALU instruction writes the ALU's result and advances past its three bytes, raises
`RegisterIndexFault`, or, for an operation outside the six, raises `UnsupportedOperation`. -/
theorem aluInstr_cases (op : AluOp) (opA opB : Byte) (s : State) :
    (∃ (a b : Fin Config.nreg) (v : Byte), opA.toNat = a ∧ opB.toNat = b ∧
        alu op (s.readReg a) (s.readReg b) = some v ∧
        aluInstr op opA opB s = (s.writeReg a v).advance 3) ∨
      (∃ c : Byte, ¬ c.toNat < Config.nreg ∧ aluInstr op opA opB s = s.halt (.registerIndexFault c)) ∨
      (op = .unrecognised ∧ aluInstr op opA opB s = s.halt .unsupportedOperation) := by
  rcases withRegs_cases opA opB s (fun a b => aluWrite op a b s) with ⟨a, b, ha, hb, h⟩ | ⟨c, hc, _, h⟩
  · cases hv : alu op (s.readReg a) (s.readReg b) with
    | some v => exact .inl ⟨a, b, v, ha, hb, hv, by rw [aluInstr, h]; simp [aluWrite, hv]⟩
    | none =>
      refine .inr (.inr ⟨?_, by rw [aluInstr, h]; simp [aluWrite, hv, State.raise]⟩)
      cases op <;> simp [alu] at hv ⊢
  · exact .inr (.inl ⟨c, hc, h⟩)

end Sys2Proof.Machine
end

