-- ==== Sys2Proof/Laws/PerInstr.lean ====
section
/-! SUPPORT. Families of statements proved one instruction at a time. -/

/-- An instruction is as long as its mnemonic alone says (30_encoding.md rules R70 and R76). -/
def Sys2Proof.Laws.EncodeLength.Statement (i : Sys2Proof.Instr) : Prop :=
  (Sys2Proof.encode i).length = Sys2Proof.instrLength i.mnemonic

namespace Sys2Proof.Laws.EncodeLength

theorem ldi (a imm : Byte) : Statement (.ldi a imm) := rfl
theorem prn (a : Byte) : Statement (.prn a) := rfl
theorem mul (a b : Byte) : Statement (.mul a b) := rfl
theorem add (a b : Byte) : Statement (.add a b) := rfl
theorem push (a : Byte) : Statement (.push a) := rfl
theorem pop (a : Byte) : Statement (.pop a) := rfl
theorem call (a : Byte) : Statement (.call a) := rfl
theorem ret : Statement .ret := rfl
theorem cmp (a b : Byte) : Statement (.cmp a b) := rfl
theorem jmp (a : Byte) : Statement (.jmp a) := rfl
theorem jeq (a : Byte) : Statement (.jeq a) := rfl
theorem jne (a : Byte) : Statement (.jne a) := rfl
theorem hlt : Statement .hlt := rfl

end Sys2Proof.Laws.EncodeLength
end

