-- ==== Sys2Proof/Laws/Step.lean ====
section
/-! SUPPORT. What fetch and step can do, said once, and what a jump can do. -/

namespace Sys2Proof.Machine

/-- A jump goes to the register's value, falls through, or raises `RegisterIndexFault`. -/
theorem jumpIf_cases (taken : Bool) (opA : Byte) (s : State) :
    (∃ a : Fin Config.nreg, opA.toNat = a ∧ taken = true ∧ jumpIf taken opA s = s.setPc (s.readReg a)) ∨
      (∃ a : Fin Config.nreg, opA.toNat = a ∧ taken = false ∧ jumpIf taken opA s = s.advance 2) ∨
      (¬ opA.toNat < Config.nreg ∧ jumpIf taken opA s = s.halt (.registerIndexFault opA)) := by
  unfold jumpIf
  rcases withReg_cases opA s (fun a => if taken then s.setPc (s.readReg a) else s.advance 2) with
    ⟨a, ha, h⟩ | ⟨hn, h⟩
  · cases taken
    · exact .inr (.inl ⟨a, ha, rfl, h⟩)
    · exact .inl ⟨a, ha, rfl, h⟩
  · exact .inr (.inr ⟨hn, h⟩)

/-- Where the byte at `pc` is an opcode, the fetch delivers its whole instruction: no instruction is
truncated. -/
theorem fetchInstr_of_mapped {s : State} {m : Mnemonic} (h : lookupOpcode opc (s.memRead s.pc) = some m) :
    ∃ i rest, fetchInstr s = .ok (i, rest) := by
  simp only [fetchInstr, fetchBytes, h]
  cases m <;> simp only [Option.map, operandCount, decode, decodeWith, h, takeOperands, takeTwo, takeOne] <;>
    exact ⟨_, _, rfl⟩

/-- Where it is not, the fetch says which byte it was. -/
theorem fetchInstr_of_unmapped {s : State} (h : lookupOpcode opc (s.memRead s.pc) = none) :
    fetchInstr s = .error (.unmappedOpcode (s.memRead s.pc)) := by
  simp [fetchInstr, fetchBytes, decode, decodeWith, h]

/-- A fetched instruction is the one whose opcode byte is at `pc` and whose operand bytes follow it. -/
theorem fetchInstr_bytes {s : State} {i : Instr} {rest : List Byte} (h : fetchInstr s = .ok (i, rest)) :
    opc i.mnemonic = s.memRead s.pc ∧
      operandBytes i = [s.memRead (s.pc + 1), s.memRead (s.pc + 2)].take (operandCount i.mnemonic) := by
  simp only [fetchInstr, fetchBytes] at h
  cases hl : lookupOpcode opc (s.memRead s.pc) with
  | none => simp [hl, decode, decodeWith] at h
  | some m =>
    have hm := lookupOpcode_some hl
    simp only [hl] at h
    cases m <;> simp only [Option.map, operandCount, decode, decodeWith, hl, takeOperands, takeTwo, takeOne] at h <;>
      cases h <;> exact ⟨hm, rfl⟩

/-- A step that answers a next state ran from a running state and either executed the fetched instruction
or halted on an unmapped opcode. -/
theorem step_next_cases {s t : State} (h : step s = .next t) :
    s.run = .running ∧
      ((∃ i rest, fetchInstr s = .ok (i, rest) ∧ exec i s = .next t) ∨
        (lookupOpcode opc (s.memRead s.pc) = none ∧ t = s.raise (.invalidInstruction (s.memRead s.pc)))) := by
  cases hr : s.run with
  | halted c => simp [step, hr, haltedOutcome] at h
  | running =>
    refine ⟨rfl, ?_⟩
    cases hl : lookupOpcode opc (s.memRead s.pc) with
    | none =>
      simp only [step, hr, fetchInstr_of_unmapped hl] at h
      cases h
      exact .inr ⟨rfl, rfl⟩
    | some m =>
      obtain ⟨i, rest, hf⟩ := fetchInstr_of_mapped hl
      simp only [step, hr, hf] at h
      exact .inl ⟨i, rest, hf, h⟩

end Sys2Proof.Machine
end

