-- ==== Sys2Proof/Machine/Assembler.lean ====
section
/-! DEFINITION. The assembler syntax of 30_encoding.md rule R80 as data, and the bytes it emits. It is
notation for examples, no part of the hardware (decision D19): the core reads bytes only. The text of a
line is not parsed (00_scope.md rule R4 leaves text-encoded programs out); label names are numbers. -/

namespace Sys2Proof.Machine

/-- An immediate: a number in 0..255, or a label. -/
inductive AsmImm where
  | num (v : Byte)
  | label (name : Nat)
  deriving DecidableEq, Repr

/-- A line. `Ra` and `Rb` are `R0` to `R7`. -/
inductive AsmLine where
  | ldi (ra : Fin 8) (imm : AsmImm)
  | prn (ra : Fin 8)
  | mul (ra rb : Fin 8)
  | add (ra rb : Fin 8)
  | push (ra : Fin 8)
  | pop (ra : Fin 8)
  | call (ra : Fin 8)
  | ret
  | cmp (ra rb : Fin 8)
  | jmp (ra : Fin 8)
  | jeq (ra : Fin 8)
  | jne (ra : Fin 8)
  | hlt
  /-- `.byte v`. -/
  | byte (v : Byte)
  /-- `name:`, the address of the next byte emitted. -/
  | label (name : Nat)
  deriving DecidableEq, Repr

/-- The operand byte of a register. -/
def regByte (r : Fin 8) : Byte := trunc8 r.val

/-- The instruction of a line, given the addresses of the labels; a line that names an unknown label, or
that is no instruction, has none. -/
def asmInstr (labels : List (Nat × Byte)) : AsmLine → Option Instr
  | .ldi a (.num v) => some (.ldi (regByte a) v)
  | .ldi a (.label n) => (labels.lookup n).map (.ldi (regByte a))
  | .prn a => some (.prn (regByte a))
  | .mul a b => some (.mul (regByte a) (regByte b))
  | .add a b => some (.add (regByte a) (regByte b))
  | .push a => some (.push (regByte a))
  | .pop a => some (.pop (regByte a))
  | .call a => some (.call (regByte a))
  | .ret => some .ret
  | .cmp a b => some (.cmp (regByte a) (regByte b))
  | .jmp a => some (.jmp (regByte a))
  | .jeq a => some (.jeq (regByte a))
  | .jne a => some (.jne (regByte a))
  | .hlt => some .hlt
  | .byte _ => none
  | .label _ => none

/-- How many bytes a line emits. -/
def asmSize : AsmLine → Nat
  | .label _ => 0
  | .byte _ | .ret | .hlt => 1
  | .prn _ | .push _ | .pop _ | .call _ | .jmp _ | .jeq _ | .jne _ => 2
  | .ldi _ _ | .mul _ _ | .add _ _ | .cmp _ _ => 3

/-- The labels of a program whose first byte is at an address. -/
def asmLabels (a : Nat) : List AsmLine → List (Nat × Byte)
  | [] => []
  | .label n :: ls => (n, trunc8 a) :: asmLabels a ls
  | l :: ls => asmLabels (a + asmSize l) ls

/-- The bytes of one line. -/
def asmBytes (labels : List (Nat × Byte)) : AsmLine → Option (List Byte)
  | .label _ => some []
  | .byte v => some [v]
  | l => (asmInstr labels l).map encode

/-- The memory image of a program, from address 0 (R81: a list of bytes); `none` where a label is unknown. -/
def assemble (ls : List AsmLine) : Option (List Byte) :=
  (ls.mapM (asmBytes (asmLabels 0 ls))).map List.flatten

end Sys2Proof.Machine
end

