-- ==== Sys2Proof/Tests/Slice0.lean ====
section
/-! SUPPORT. The implementer's tests: the WellFormed smoke test, words written out from the encodings of
spec/30_encoding.md, single steps whose results are the vectors of spec/95_test_vectors.md (V-numbers), and
a witness for the hypotheses of every statement that has any. -/

namespace Sys2Proof.Tests

open Sys2Proof Sys2Proof.Machine

/-! ## Helpers -/

/-- Reset with bytes at an address and `pc` there. -/
def placed (p : Byte) (bytes : List Byte) : State := (State.reset.storeBytes p bytes).setPc p

/-- The next state, if there is one. -/
def nextOf : StepOutcome → Option State
  | .next t => some t
  | .fault _ => none
  | .refused _ => none

/-- Some fields of the next state. -/
def seen {α : Type} (s : State) (f : State → α) : Option α := (nextOf (step s)).map f

/-! ## WellFormed: an ill-formed term for each check, refused -/

theorem test_wf_refuses_ldi : (Instr.ldi 8 0).wf = false := by decide
theorem test_wf_refuses_prn : (Instr.prn 8).wf = false := by decide
theorem test_wf_refuses_mul_a : (Instr.mul 8 0).wf = false := by decide
theorem test_wf_refuses_mul_b : (Instr.mul 0 0x10).wf = false := by decide
theorem test_wf_refuses_add_a : (Instr.add 0xF0 0).wf = false := by decide
theorem test_wf_refuses_add_b : (Instr.add 0 9).wf = false := by decide
theorem test_wf_refuses_push : (Instr.push 9).wf = false := by decide
theorem test_wf_refuses_pop : (Instr.pop 0xFF).wf = false := by decide
theorem test_wf_refuses_call : (Instr.call 8).wf = false := by decide
theorem test_wf_refuses_cmp_a : (Instr.cmp 8 200).wf = false := by decide
theorem test_wf_refuses_cmp_b : (Instr.cmp 1 8).wf = false := by decide
theorem test_wf_refuses_jmp : (Instr.jmp 8).wf = false := by decide
theorem test_wf_refuses_jeq : (Instr.jeq 9).wf = false := by decide
theorem test_wf_refuses_jne : (Instr.jne 0x0A).wf = false := by decide
theorem test_wf_accepts_any_immediate : (Instr.ldi 7 200).wf = true := by decide

/-! ## Decoding, words written out bit by bit (R71, R74) -/

theorem test_decode_ldi : decode [0b10000010, 0b00000111, 0b11001000] = .ok (.ldi 7 200, []) := by decide
theorem test_decode_prn : decode [0b01000111, 0b00000101] = .ok (.prn 5, []) := by decide
theorem test_decode_mul : decode [0b10100010, 0b00000011, 0b00000100] = .ok (.mul 3 4, []) := by decide
theorem test_decode_add : decode [0b10100000, 0b00000110, 0b00000111] = .ok (.add 6 7, []) := by decide
theorem test_decode_push : decode [0b01000101, 0b00000010] = .ok (.push 2, []) := by decide
theorem test_decode_pop : decode [0b01000110, 0b00000001] = .ok (.pop 1, []) := by decide
theorem test_decode_call : decode [0b01010000, 0b00000001] = .ok (.call 1, []) := by decide
theorem test_decode_ret : decode [0b00010001, 0b11111111] = .ok (.ret, [0xFF]) := by decide
theorem test_decode_cmp : decode [0b10100111, 0b00000000, 0b00000010] = .ok (.cmp 0 2, []) := by decide
theorem test_decode_jmp : decode [0b01010100, 0b00000011] = .ok (.jmp 3, []) := by decide
theorem test_decode_jeq : decode [0b01010101, 0b00000010] = .ok (.jeq 2, []) := by decide
theorem test_decode_jne : decode [0b01010110, 0b00000011] = .ok (.jne 3, []) := by decide
theorem test_decode_hlt : decode [0b00000001] = .ok (.hlt, []) := by decide
/-- V11.6: LS-8's AND is not an instruction here. -/
theorem test_decode_and_unmapped : decode [0xA8, 0x00, 0x01] = .error (.unmappedOpcode 0xA8) := by decide
theorem test_decode_truncated : decode [0x82, 0x00] = .error .truncated := by decide
/-- The second byte of a table word is bits 15..8, the third bits 23..16; bits above `nbits` are 0. -/
theorem test_table_word : decodeTableWord 24 0x080082 = some (.ldi 0 8) := by decide
theorem test_table_word_short : decodeTableWord 8 0x0505A0 = some (.add 0 0) := by decide
theorem test_fetch_word_runs :
    seen (State.reset.withFetchWord 24 0x050782) (fun t => (t.x, t.pc)) = some (#v[0, 0, 0, 0, 0, 0, 0, 5], 3) := by
  decide

/-! ## Single steps -/

/-- V1.7: the second operand is read at 0x00 and `pc` wraps. -/
theorem test_ldi_wraps :
    seen (placed 0xFE [0x82, 0x01, 0x82]) (fun t => (t.readReg 1, t.pc)) = some (0x82, 0x01) := by decide
/-- V1.5. -/
theorem test_ldi_index_fault :
    seen (placed 0x00 [0x82, 0x08, 0x05]) (fun t => (t.run, t.pc)) =
      some (.halted (.registerIndexFault 0x08), 0x00) := by decide
/-- V2.1. -/
theorem test_prn : seen ((placed 0x09 [0x47, 0x00]).writeReg 0 72) (fun t => (t.out, t.pc)) =
    some ([72], 0x0B) := by decide
/-- V2.3, V2.2 and V2.1, the rendered bytes. -/
theorem test_prn_rendered :
    renderOut [255, 0, 72] = [0x32, 0x35, 0x35, 0x0A, 0x30, 0x0A, 0x37, 0x32, 0x0A] := by decide
/-- V4.4. -/
theorem test_mul_wraps :
    seen (((placed 0x00 [0xA2, 0x03, 0x04]).writeReg 3 255).writeReg 4 255) (fun t => (t.readReg 3, t.readReg 4)) =
      some (0x01, 255) := by decide
/-- V4.3: a register that is both operands. -/
theorem test_mul_same : seen ((placed 0x00 [0xA2, 0x02, 0x02]).writeReg 2 15) (fun t => t.readReg 2) =
    some 0xE1 := by decide
/-- V4.10. -/
theorem test_add_wraps :
    seen (((placed 0x00 [0xA0, 0x00, 0x01]).writeReg 0 200).writeReg 1 100) (fun t => (t.readReg 0, t.fl)) =
      some (0x2C, 0) := by decide
/-- V4.17: `opA` is checked first. -/
theorem test_add_fault_order : seen (placed 0x00 [0xA0, 0xF0, 0x09]) (fun t => t.run) =
    some (.halted (.registerIndexFault 0xF0)) := by decide
/-- V5.8: a PUSH onto its own operand byte, which was read first. -/
theorem test_push_own_operand :
    seen (((placed 0x30 [0x45, 0x00]).writeReg 0 0x77).setSp 0x32) (fun t => (t.sp, t.memRead 0x31, t.pc)) =
      some (0x31, 0x77, 0x32) := by decide
/-- V5.2. -/
theorem test_push_overflow :
    seen (((placed 0x00 [0x45, 0x00]).writeReg 0 5).memWrite 0xF3 9) (fun t => (t.run, t.sp, t.memRead 0xF3, t.pc)) =
      some (.halted .stackOverflow, 0xF4, 0x09, 0x00) := by decide
/-- V5.14: `sp` wraps. -/
theorem test_pop_wraps :
    seen (((placed 0x10 [0x46, 0x02]).setSp 0xFF).memWrite 0xFF 0x42)
      (fun t => (t.readReg 2, t.memRead 0xFF, t.sp, t.pc)) = some (0x42, 0x00, 0x00, 0x12) := by decide
/-- V5.16: a POP of its own opcode byte. -/
theorem test_pop_own_opcode :
    seen ((placed 0x40 [0x46, 0x04]).setSp 0x40) (fun t => (t.readReg 4, t.memRead 0x40, t.sp, t.pc)) =
      some (0x46, 0x00, 0x41, 0x42) := by decide
/-- V6.4: the return address wraps. -/
theorem test_call_wraps :
    seen ((placed 0xFF [0x50, 0x00]).writeReg 0 0x10) (fun t => (t.sp, t.memRead 0xF3, t.pc)) =
      some (0xF3, 0x01, 0x10) := by decide
/-- V6.2: no check. -/
theorem test_call_overwrites :
    seen (((placed 0x06 [0x50, 0x01]).writeReg 1 9).memWrite 0xF3 0x55) (fun t => (t.run, t.memRead 0xF3, t.pc)) =
      some (.running, 0x08, 0x09) := by decide
/-- V6.10: the cell is not zeroed. -/
theorem test_ret_keeps_cell :
    seen (((placed 0x0E [0x11]).setSp 0xF3).memWrite 0xF3 8) (fun t => (t.pc, t.sp, t.memRead 0xF3)) =
      some (0x08, 0xF4, 0x08) := by decide
/-- V6.14. -/
theorem test_ret_own_opcode : seen ((placed 0x0E [0x11]).setSp 0x0E) (fun t => (t.pc, t.sp)) =
    some (0x11, 0x0F) := by decide
/-- V7.5: unsigned. -/
theorem test_cmp_unsigned :
    seen (((placed 0x00 [0xA7, 0x00, 0x01]).writeReg 0 0x80).writeReg 1 0x7F) (fun t => t.fl) =
      some 0b010 := by decide
/-- V7.2. -/
theorem test_cmp_less :
    seen (((placed 0x11 [0xA7, 0x00, 0x02]).writeReg 0 2).writeReg 2 3) (fun t => (t.fl, t.pc)) =
      some (0b100, 0x14) := by decide
/-- V8.3. -/
theorem test_jmp :
    seen (((placed 0x00 [0x54, 0x07]).writeReg 7 0xFF).setFl 0b001) (fun t => (t.pc, t.fl)) =
      some (0xFF, 0b001) := by decide
/-- V9.7: not taken, and `pc` wraps. -/
theorem test_jeq_falls :
    seen (((placed 0xFF [0x55, 0x02]).writeReg 2 0x20).setFl 0b100) (fun t => t.pc) = some 0x01 := by decide
/-- V9.5: the operand is checked when the jump is not taken. -/
theorem test_jeq_index_fault : seen ((placed 0x00 [0x55, 0x09]).setFl 0b100) (fun t => t.run) =
    some (.halted (.registerIndexFault 0x09)) := by decide
/-- V10.4: at reset JNE jumps. -/
theorem test_jne_at_reset : seen ((placed 0x14 [0x56, 0x03]).writeReg 3 0x0C) (fun t => t.pc) =
    some 0x0C := by decide
/-- V10.2. -/
theorem test_jne_falls :
    seen (((placed 0x14 [0x56, 0x03]).writeReg 3 0x0C).setFl 0b001) (fun t => t.pc) = some 0x16 := by decide
/-- V11.2. -/
theorem test_hlt : seen (placed 0xFF [0x01]) (fun t => (t.run, t.pc)) = some (.halted .hlt, 0xFF) := by decide
/-- V11.8. -/
theorem test_unmapped : seen (placed 0xFF [0x83]) (fun t => (t.run, t.pc)) =
    some (.halted (.invalidInstruction 0x83), 0x00) := by decide
/-- V3, the row of 0xCC and 0xAA. -/
theorem test_alu : [AluOp.add, .multiply, .and, .or, .xor, .not, .unrecognised].map (fun o => alu o 0xCC 0xAA) =
    [some 0x76, some 0x78, some 0x88, some 0xEE, some 0x66, some 0x77, none] := by decide
/-- R74, R78: 13 distinct opcode bytes, so 243 of the 256 are illegal. -/
theorem test_thirteen_opcodes :
    (Mnemonic.all.map opc).Nodup ∧ (Mnemonic.all.map opc).length = 13 := by decide
/-- R80, R81: a label is the address of the next byte emitted. -/
theorem test_assemble :
    assemble [.ldi 1 (.label 0), .call 1, .hlt, .label 0, .ret, .byte 7] =
      some [0x82, 0x01, 0x06, 0x50, 0x01, 0x01, 0x11, 0x07] := by decide

/-! ## Witnesses: for each statement, a state and operands that meet its hypotheses -/

/-- A second opcode map, not the machine's. -/
def otherMap (m : Mnemonic) : Byte := opc m + 1

theorem witness_DecodeEncodeAnyMap : OpcAdmissible otherMap := by
  refine ⟨fun i j => ?_, fun i => ?_⟩
  · cases i <;> cases j <;> decide
  · cases i <;> decide

theorem witness_DecodedBytesAreTheEncoding : decodeWith opc [0x45, 0xFF, 0x09] = .ok (.push 0xFF, [0x09]) := by
  decide

theorem witness_DecoderAcceptsThirteenBytes :
    (0x81 : Byte) ∉ [0x82#8, 0x47, 0xA2, 0xA0, 0x45, 0x46, 0x50, 0x11, 0xA7, 0x54, 0x55, 0x56, 0x01] ∧
      (0x82 : Byte) ∈ [0x82#8, 0x47, 0xA2, 0xA0, 0x45, 0x46, 0x50, 0x11, 0xA7, 0x54, 0x55, 0x56, 0x01] := by
  decide

/-- A running state whose bytes at 0xFE, 0xFF and 0x00 are an LDI. -/
theorem witness_StepRunsDecodedInstruction :
    let s := placed 0xFE [0x82, 0x07, 0x05]
    s.run = .running ∧
      decode [s.memRead s.pc, s.memRead (s.pc + 1), s.memRead (s.pc + 2)] = .ok (.ldi 7 5, []) := by decide

theorem witness_StepOnUnmappedOpcode :
    (placed 0x00 [0xFF]).run = .running ∧ ∀ m, opc m ≠ (placed 0x00 [0xFF]).memRead 0x00 := by
  refine ⟨rfl, fun m => ?_⟩
  cases m <;> decide

theorem witness_HaltedTakesNoStep : (State.reset.halt .stackOverflow).run = .halted .stackOverflow := rfl

theorem witness_HaltIsFinalInRun : (runFor 1 State.reset).run = .halted (.invalidInstruction 0x00) := by decide

theorem witness_SelfJumpRunsForEver :
    let s := placed 0x00 [0x54, 0x07]
    s.run = .running ∧ s.memRead s.pc = 0x54 ∧ s.memRead (s.pc + 1) = 7 ∧ (7 : Byte).toNat = (7 : Fin 8) ∧
      s.readReg 7 = s.pc := by decide

theorem witness_FetchWordIsRun : decodeTableWord 16 0x0745 = some (.push 7) := by decide

theorem witness_StepKeepsInv : ∃ t, Inv (placed 0x00 [0x45, 0x07]) ∧ step (placed 0x00 [0x45, 0x07]) = .next t :=
  ⟨_, ⟨by decide, by decide⟩, rfl⟩

/-- The four ways to halt. -/
theorem witness_HaltsArePreciseAndExplained :
    seen (placed 0x00 [0x01]) (·.run) = some (.halted .hlt) ∧
      seen (placed 0x00 [0x00]) (·.run) = some (.halted (.invalidInstruction 0x00)) ∧
      seen ((placed 0x00 [0x45, 0x00]).memWrite 0xF3 1) (·.run) = some (.halted .stackOverflow) ∧
      seen (placed 0x00 [0xA0, 0x07, 0x08]) (·.run) = some (.halted (.registerIndexFault 0x08)) := by decide

theorem witness_MemoryIsReplayOfAccesses :
    ∃ t, step ((placed 0x00 [0x45, 0x07]).writeReg 7 9) = .next t := ⟨_, rfl⟩

/-- A PUSH, and a memory that agrees on the three cells it reads and differs at 0x80. -/
theorem witness_StepReadsOnlyItsAccesses :
    (∃ t, step (placed 0x00 [0x45, 0x07]) = .next t) ∧
      ∀ e : Byte, Access.read e ∈ stepAccesses (placed 0x00 [0x45, 0x07]) →
        Memory.read [(0, 0x45), (1, 0x07), (0x80, 0xAB)] e.toNat = (placed 0x00 [0x45, 0x07]).memRead e := by
  refine ⟨⟨_, rfl⟩, fun e he => ?_⟩
  rw [show stepAccesses (placed 0x00 [0x45, 0x07]) = [.read 0x00, .read 0x01, .read 0xF3, .write 0xF3 0x00] by
    decide] at he
  simp only [List.mem_cons, Access.read.injEq, List.not_mem_nil, or_false, reduceCtorEq] at he
  rcases he with rfl | rfl | rfl <;> decide

/-- A system in each of the phases: fresh, loaded, started and ended. -/
theorem witness_HostEventsKeepSystemInvariant :
    ∃ y z w v, Reachable y ∧ Reachable z ∧ Reachable w ∧ Reachable v ∧ y.phase = .fresh ∧ z.phase = .loaded ∧
      w.phase = .started ∧ v.phase = .ended :=
  have hz : Reachable _ := .event (e := .load [0x01]) .init rfl
  have hw : Reachable _ := .event (e := .run) hz rfl
  have hv : Reachable _ := .event (e := .step) hw rfl
  ⟨_, _, _, _, .init, hz, hw, hv, rfl, rfl, rfl, rfl⟩

theorem witness_LaunchStateOfImage :
    (List.replicate 256 (0x01 : Byte)).length ≤ 256 ∧ 256 < (List.replicate 257 (0x01 : Byte)).length := by
  simp only [List.length_replicate]
  decide

theorem witness_MemWriteThenRead : Memory.wf State.reset.mem ∧ (0xFF : Byte) ≠ 0x00 := by decide

theorem witness_CanonicalMemoryIsUnique :
    Memory.wf [(0, 0x01), (255, 0xFF)] ∧ Memory.wf (Memory.write [(255, 0xFF)] 0 0x01) ∧
      Memory.write [(255, 0xFF)] 0 0x01 = [(0, 0x01), (255, 0xFF)] := by decide

theorem witness_RegistersAreOrdinary :
    (4 : Fin 8) ≠ 7 ∧ (Instr.push 7).wf = true ∧ (placed 0x00 []).run = .running ∧
      ∃ t, exec (.push 7) (placed 0x00 []) = .next t := ⟨by decide, by decide, rfl, _, rfl⟩

/-- One instruction for each clause, and two flag values that JEQ cannot tell apart. -/
theorem witness_OnlyCmpWritesFlagsOnlyJumpsReadThem :
    (∃ t, exec .ret State.reset = .next t) ∧ (Instr.cmp 7 7).wf = true ∧
      (∃ t, exec (.jeq 7) (State.reset.setFl 0b010) = .next t) ∧
      ((0b100 : FlagBits) = flEq ↔ (State.reset.setFl 0b010).fl = flEq) :=
  ⟨⟨_, rfl⟩, by decide, ⟨_, rfl⟩, by decide⟩

theorem witness_OnlyStackInstructionsTouchSp :
    (∃ t, exec (.pop 7) State.reset = .next t ∧ t.sp = State.reset.sp + 1) ∧
      (∃ t, exec (.call 0) (State.reset.setSp 0) = .next t ∧ t.sp = 0xFF) ∧
      ∃ t, exec (.mul 7 7) State.reset = .next t := ⟨⟨_, rfl, rfl⟩, ⟨_, rfl, rfl⟩, ⟨_, rfl⟩⟩

theorem witness_OnlyPrnAppendsToOut :
    ∃ t, exec (.prn 7) (State.reset.emit 1) = .next t ∧ t.out = [1, 0] := ⟨_, rfl, rfl⟩

theorem witness_OutIsTraceOfOutputPort :
    (∃ t, step (placed 0x00 [0x47, 0x07]) = .next t) ∧ outPort (placed 0x00 [0x47, 0x07]) = some 0 :=
  ⟨⟨_, rfl⟩, by decide⟩

theorem witness_FaultEntryEffects :
    (7 : Byte).toNat = (7 : Fin 8) ∧ (State.reset.memWrite 0xF3 1).memRead (0xF4 - 1) ≠ 0 := by decide

theorem witness_CausePortsIdentifyCause :
    (Cause.registerIndexFault 8).code = (Cause.registerIndexFault 8).code ∧
      (Cause.registerIndexFault 8).info ≠ (Cause.registerIndexFault 9).info := by decide

theorem witness_RegisterIndexFaultFirst : 7 < (8 : Byte).toNat ∧ (7 : Byte).toNat ≤ 7 := by decide

theorem witness_AluUnsupportedRaises :
    (7 : Byte).toNat ≤ 7 ∧ AluOp.not ≠ AluOp.unrecognised := by decide

/-- The boundary of the two clauses on a register operand byte: 7 names a register, 8 faults. Each
instruction below is run at both. -/
theorem witness_register_operand_boundary : (7 : Byte).toNat = (7 : Fin 8) ∧ 7 < (8 : Byte).toNat := by decide

theorem witness_LdiResult : (nextOf (exec (.ldi 7 8) State.reset)).map (·.run) = some .running ∧
    (nextOf (exec (.ldi 8 8) State.reset)).map (·.run) = some (.halted (.registerIndexFault 8)) := by decide
theorem witness_PrnResult : (nextOf (exec (.prn 7) State.reset)).map (·.run) = some .running ∧
    (nextOf (exec (.prn 8) State.reset)).map (·.run) = some (.halted (.registerIndexFault 8)) := by decide
theorem witness_MulResult : (nextOf (exec (.mul 7 7) State.reset)).map (·.run) = some .running ∧
    (nextOf (exec (.mul 8 9) State.reset)).map (·.run) = some (.halted (.registerIndexFault 8)) ∧
    (nextOf (exec (.mul 7 8) State.reset)).map (·.run) = some (.halted (.registerIndexFault 8)) := by decide
theorem witness_AddResult : (nextOf (exec (.add 7 7) State.reset)).map (·.run) = some .running ∧
    (nextOf (exec (.add 8 9) State.reset)).map (·.run) = some (.halted (.registerIndexFault 8)) ∧
    (nextOf (exec (.add 7 8) State.reset)).map (·.run) = some (.halted (.registerIndexFault 8)) := by decide
theorem witness_PushResult : State.reset.memRead (State.reset.sp - 1) = 0 ∧
    (State.reset.memWrite 0xF3 1).memRead (0xF4 - 1) ≠ 0 ∧
    (nextOf (exec (.push 7) State.reset)).map (·.run) = some .running ∧
    (nextOf (exec (.push 8) State.reset)).map (·.run) = some (.halted (.registerIndexFault 8)) := by decide
theorem witness_PopResult : (nextOf (exec (.pop 7) State.reset)).map (·.run) = some .running ∧
    (nextOf (exec (.pop 8) State.reset)).map (·.run) = some (.halted (.registerIndexFault 8)) := by decide
theorem witness_CallResult : (nextOf (exec (.call 7) State.reset)).map (·.run) = some .running ∧
    (nextOf (exec (.call 8) State.reset)).map (·.run) = some (.halted (.registerIndexFault 8)) := by decide
theorem witness_CallRetParameters : (callWith true 7 State.reset).run = .running ∧
    (callWith true 7 (State.reset.memWrite 0xF3 1)).run = .halted .stackOverflow := by decide
theorem witness_CmpResult : (nextOf (exec (.cmp 7 7) State.reset)).map (·.fl) = some 0b001 ∧
    (nextOf (exec (.cmp 8 9) State.reset)).map (·.run) = some (.halted (.registerIndexFault 8)) ∧
    (nextOf (exec (.cmp 7 8) State.reset)).map (·.run) = some (.halted (.registerIndexFault 8)) := by decide
theorem witness_JmpResult : (nextOf (exec (.jmp 7) State.reset)).map (·.run) = some .running ∧
    (nextOf (exec (.jmp 8) State.reset)).map (·.run) = some (.halted (.registerIndexFault 8)) := by decide
theorem witness_JeqResult : (nextOf (exec (.jeq 7) (State.reset.setFl 0b001))).map (·.run) = some .running ∧
    (nextOf (exec (.jeq 8) State.reset)).map (·.run) = some (.halted (.registerIndexFault 8)) := by decide
theorem witness_JneResult : (nextOf (exec (.jne 7) State.reset)).map (·.run) = some .running ∧
    (nextOf (exec (.jne 8) State.reset)).map (·.run) = some (.halted (.registerIndexFault 8)) := by decide

theorem witness_LdiMulAddFrame :
    (∃ t, Instr.mul 7 6 ∈ [Instr.ldi 7 6, .mul 7 6, .add 7 6] ∧ exec (.mul 7 6) State.reset = .next t ∧
      (Instr.mul 7 6).wf = true ∧ (7 : Byte).toNat ≠ (6 : Fin 8)) ∧
    ∃ t, exec (.mul 7 8) State.reset = .next t ∧ (Instr.mul 7 8).wf = false :=
  ⟨⟨_, by decide, rfl, by decide, by decide⟩, ⟨_, rfl, by decide⟩⟩
theorem witness_NoRegisterNoStoreFrame :
    ∃ t, Instr.jne 7 ∈ [Instr.prn 7, .cmp 7 6, .jmp 7, .jeq 7, .jne 7, .hlt] ∧
      exec (.jne 7) State.reset = .next t ∧ (Instr.jne 7).mnemonic ≠ .hlt ∧ (Instr.jne 7).wf = true :=
  ⟨_, by decide, rfl, by decide, by decide⟩
theorem witness_PushCallFrame :
    (∃ t, Instr.push 7 ∈ [Instr.push 7, .call 7] ∧ exec (.push 7) State.reset = .next t) ∧
      ∃ t, exec (.call 8) State.reset = .next t ∧ t.run ≠ State.reset.run :=
  ⟨⟨_, by decide, rfl⟩, ⟨_, rfl, by decide⟩⟩
theorem witness_PopFrame :
    (∃ t, exec (.pop 7) State.reset = .next t ∧ (7 : Byte).toNat ≠ (0 : Fin 8)) ∧
      ∃ t, exec (.pop 8) State.reset = .next t := ⟨⟨_, rfl, by decide⟩, ⟨_, rfl⟩⟩
theorem witness_RetFrame : ∃ t, exec .ret State.reset = .next t := ⟨_, rfl⟩

theorem witness_PushPopRoundTrip :
    (0 : Byte).toNat = (0 : Fin 8) ∧ (7 : Byte).toNat = (7 : Fin 8) ∧
      State.reset.memRead (State.reset.sp - 1) = 0 := by decide
/-- A CALL, then a state that other instructions have changed and that still has `sp` and the return cell. -/
theorem witness_CallThenRetReturns :
    ∃ t u, exec (.call 7) (placed 0x06 []) = .next t ∧ u.sp = t.sp ∧ u.memRead t.sp = t.memRead t.sp ∧ u ≠ t :=
  ⟨_, ((State.reset.setSp 0xF3).memWrite 0xF3 0x08).writeReg 7 9, rfl, rfl, by decide, by decide⟩
theorem witness_StaleReturnAddressBlocksPush :
    (7 : Byte).toNat ≤ 7 ∧ (placed 0x00 []).pc + 2 ≠ 0 ∧ (placed 0xFE []).pc + 2 = 0 := by decide
theorem witness_CmpDecidesJumps :
    (∃ t, exec (.cmp 0 7) State.reset = .next t ∧ (State.reset.setFl 0b001).fl = t.fl ∧
      State.reset.readReg 0 = State.reset.readReg 7) ∧
    ∃ t, exec (.cmp 0 7) (State.reset.writeReg 7 1) = .next t ∧ (State.reset.setFl 0b100).fl = t.fl ∧
      (State.reset.writeReg 7 1).readReg 0 ≠ (State.reset.writeReg 7 1).readReg 7 :=
  ⟨⟨_, rfl, by decide, by decide⟩, ⟨_, rfl, by decide, by decide⟩⟩

/-- A system that meets the invariant, and an event it allows. -/
theorem witness_HostEventKeepsSystemInv :
    SystemInv System.init ∧ ∃ z, System.init.event (.load [0x01]) = some z :=
  ⟨⟨⟨by decide, by decide⟩, fun _ => rfl, by decide, by simp [System.init, State.reset]⟩, _, rfl⟩
/-- One event in each of the phases that the clauses name. -/
theorem witness_HostMayNotDisturbRun :
    (∃ z, System.event { phase := .started, core := State.reset } .step = some z) ∧
      (∃ z, System.event { phase := .ended, core := State.reset.halt .hlt } .reset = some z) ∧
      ∃ z, System.init.event .run = some z := ⟨⟨_, rfl⟩, ⟨_, rfl⟩, ⟨_, rfl⟩⟩
/-- R231: no reset during the run. -/
theorem test_no_reset_during_run :
    System.event { phase := .started, core := State.reset } .reset = none := rfl

end Sys2Proof.Tests
end

section
/-! The scope family (00_scope.md): the opcode map that R6 constrains, and CALL and RET at the values of the
R5 parameters that the spec does not take. -/

namespace Sys2Proof

/-- The lookup at the spec's own map undoes it: no earlier row of the table of R74 shadows a later one. -/
theorem lookupOpcode_opc (m : Mnemonic) : lookupOpcode opc (opc m) = some m := by cases m <;> rfl

/-- R6's first constraint, by the left inverse `lookupOpcode opc`. -/
theorem opc_injective : Function.Injective opc := fun i j h =>
  Option.some.inj (by rw [← lookupOpcode_opc i, h, lookupOpcode_opc j])

/-- R6's second constraint: no row of the table of R74 has the byte 0xFF. -/
theorem opc_ne_ff : ∀ m : Mnemonic, opc m ≠ 0xFF := lookupOpcode_none.1 (by decide)

theorem opcAdmissible_opc : OpcAdmissible opc := ⟨fun _ _ h => opc_injective h, opc_ne_ff⟩

/-- Settles O3: the spec's own map is admissible, its lookup being a left inverse. -/
theorem opcodeMapMeetsR6 : Obligations.OpcodeMapMeetsR6 :=
  ⟨fun i j hne h => hne (opcAdmissible_opc.1 i j h), opcAdmissible_opc.2⟩

namespace Machine

/-- A checked push onto a cell that is not zero halts, with `sp` restored. -/
theorem stackPush_true_of_ne_zero {v : Byte} {s : State} {k : State → State} (h : s.memRead (s.sp - 1) ≠ 0) :
    stackPush true v s k = s.halt .stackOverflow := by
  rw [stackPush_eq, if_pos ⟨rfl, h⟩]

/-- Where the cell is zero, the check changes nothing. -/
theorem stackPush_true_of_zero {v : Byte} {s : State} {k : State → State} (h : s.memRead (s.sp - 1) = 0) :
    stackPush true v s k = stackPush false v s k := by
  have hpass : ¬ (true = true ∧ s.memRead (s.sp - 1) ≠ 0) := fun hc => hc.2 h
  rw [stackPush_eq, stackPush_eq, if_neg hpass, if_neg (by simp)]

/-- CALL with an operand that names a register is a push of the return address and a jump. -/
theorem callWith_of_lt {opA : Byte} (h : opA.toNat < Config.nreg) (checks : Bool) (s : State) :
    callWith checks opA s =
      stackPush checks (s.pc + 2) s fun t => t.setPc (s.readReg ⟨opA.toNat, h⟩) := by
  rw [callWith, withReg_of_lt h]

/-- RET zeroes its cell exactly where the parameter says so. -/
theorem retWith_eq (clears : Bool) (s : State) :
    retWith clears s =
      ((if clears = true then s.memWrite s.sp 0 else s).setSp (s.sp + 1)).setPc (s.memRead s.sp) := by
  rw [retWith, stackPop_eq]

/-- Settles O44: RET by its equation, CALL by the two cases of the checked push. -/
theorem callRetParameters : Obligations.CallRetParameters := by
  refine ⟨fun s => retWith_eq true s, fun opA s hA => ?_⟩
  have hlt : opA.toNat < Config.nreg := Nat.lt_succ_of_le hA
  refine ⟨fun hne => ?_, fun hz => ?_⟩
  · rw [callWith_of_lt hlt, stackPush_true_of_ne_zero hne]
    rfl
  · rw [callWith_of_lt hlt, callWith_of_lt hlt, stackPush_true_of_zero hz]

end Machine
end Sys2Proof
end

section
/-! What one executed instruction can do, said once: `Effect s i t`, equivalent to `exec i s = .next t`
(`exec_next_iff`), and its consequences field by field. Invariants, frames and noninterference statements are
short case analyses over it. -/

namespace Sys2Proof

/-- The register operand bytes of an instruction, in the order in which they are checked (R73, R192). -/
def Instr.regOperands : Instr → List Byte
  | .ldi a _ | .prn a | .push a | .pop a | .call a | .jmp a | .jeq a | .jne a => [a]
  | .mul a b | .add a b | .cmp a b => [a, b]
  | .ret | .hlt => []

/-- The first register operand byte that names no register: the byte `RegisterIndexFault` carries. -/
def Instr.badOperand (i : Instr) : Option Byte := i.regOperands.find? fun b => !regByteOk b

theorem Instr.wf_eq_all (i : Instr) : i.wf = i.regOperands.all regByteOk := by
  cases i <;> simp [Instr.wf, Instr.regOperands]

theorem Instr.badOperand_eq_none_iff (i : Instr) : i.badOperand = none ↔ i.wf = true := by
  simp [Instr.badOperand, Instr.wf_eq_all]

/-- The faulting byte is above 7 and is one of the operand bytes. -/
theorem Instr.badOperand_some {i : Instr} {b : Byte} (h : i.badOperand = some b) :
    ¬ b.toNat < Config.nreg ∧ b ∈ operandBytes i := by
  refine ⟨fun hlt => ?_, ?_⟩
  · simpa [(Machine.regByteOk_iff b).2 hlt] using List.find?_some h
  · have hmem : b ∈ i.regOperands := List.mem_of_find?_eq_some h
    cases i <;> simp_all [Instr.regOperands, operandBytes]

/-- The operand byte that names the register an instruction writes, if it writes one. -/
def Instr.destOperand : Instr → Option Byte
  | .ldi a _ | .mul a _ | .add a _ | .pop a => some a
  | .prn _ | .push _ | .call _ | .ret | .cmp _ _ | .jmp _ | .jeq _ | .jne _ | .hlt => none

/-- What an instruction adds to `sp` when it completes (R30). -/
def Instr.spStep : Instr → Byte
  | .push _ | .call _ => -1
  | .pop _ | .ret => 1
  | .ldi _ _ | .prn _ | .mul _ _ | .add _ _ | .cmp _ _ | .jmp _ | .jeq _ | .jne _ | .hlt => 0

namespace Machine

theorem regByteOk_eq_false_iff (b : Byte) : regByteOk b = false ↔ ¬ b.toNat < Config.nreg := by
  rw [← regByteOk_iff, Bool.not_eq_true]

/-- The address an instruction stores to when it completes, if it stores. -/
def State.storeAddress (s : State) : Instr → Option Byte
  | .push _ | .call _ => some (s.sp - 1)
  | .pop _ => some s.sp
  | .ldi _ _ | .prn _ | .mul _ _ | .add _ _ | .ret | .cmp _ _ | .jmp _ | .jeq _ | .jne _ | .hlt => none

/-! ## The effect of an instruction -/

/-- `Effect s i t`: instruction `i`, executed in state `s`, leads to state `t`. A constructor for each way an
instruction completes, `pushOverflow` and `indexFault` for the two faults an instruction can take. -/
inductive Effect (s : State) : Instr → State → Prop where
  | ldi {opA imm : Byte} {a : Fin Config.nreg} (ha : opA.toNat = a) :
      Effect s (.ldi opA imm) ((s.writeReg a imm).advance 3)
  | prn {opA : Byte} {a : Fin Config.nreg} (ha : opA.toNat = a) :
      Effect s (.prn opA) ((s.emit (s.readReg a)).advance 2)
  | mul {opA opB : Byte} {a b : Fin Config.nreg} (ha : opA.toNat = a) (hb : opB.toNat = b) :
      Effect s (.mul opA opB)
        ((s.writeReg a (trunc8 ((s.readReg a).toNat * (s.readReg b).toNat))).advance 3)
  | add {opA opB : Byte} {a b : Fin Config.nreg} (ha : opA.toNat = a) (hb : opB.toNat = b) :
      Effect s (.add opA opB)
        ((s.writeReg a (trunc8 ((s.readReg a).toNat + (s.readReg b).toNat))).advance 3)
  | push {opA : Byte} {a : Fin Config.nreg} (ha : opA.toNat = a) (hz : s.memRead (s.sp - 1) = 0) :
      Effect s (.push opA) (((s.setSp (s.sp - 1)).memWrite (s.sp - 1) (s.readReg a)).advance 2)
  | pushOverflow {opA : Byte} {a : Fin Config.nreg} (ha : opA.toNat = a) (hne : s.memRead (s.sp - 1) ≠ 0) :
      Effect s (.push opA) (s.halt .stackOverflow)
  | pop {opA : Byte} {a : Fin Config.nreg} (ha : opA.toNat = a) :
      Effect s (.pop opA)
        ((((s.memWrite s.sp 0).setSp (s.sp + 1)).writeReg a (s.memRead s.sp)).advance 2)
  | call {opA : Byte} {a : Fin Config.nreg} (ha : opA.toNat = a) :
      Effect s (.call opA) (((s.setSp (s.sp - 1)).memWrite (s.sp - 1) (s.pc + 2)).setPc (s.readReg a))
  | ret : Effect s .ret ((s.setSp (s.sp + 1)).setPc (s.memRead s.sp))
  | cmp {opA opB : Byte} {a b : Fin Config.nreg} (ha : opA.toNat = a) (hb : opB.toNat = b) :
      Effect s (.cmp opA opB) ((s.setFl (compareFlags (s.readReg a) (s.readReg b))).advance 3)
  | jmp {opA : Byte} {a : Fin Config.nreg} (ha : opA.toNat = a) :
      Effect s (.jmp opA) (s.setPc (s.readReg a))
  | jeqTaken {opA : Byte} {a : Fin Config.nreg} (ha : opA.toNat = a) (heq : s.fl = flEq) :
      Effect s (.jeq opA) (s.setPc (s.readReg a))
  | jeqFalls {opA : Byte} {a : Fin Config.nreg} (ha : opA.toNat = a) (hne : s.fl ≠ flEq) :
      Effect s (.jeq opA) (s.advance 2)
  | jneTaken {opA : Byte} {a : Fin Config.nreg} (ha : opA.toNat = a) (hne : s.fl ≠ flEq) :
      Effect s (.jne opA) (s.setPc (s.readReg a))
  | jneFalls {opA : Byte} {a : Fin Config.nreg} (ha : opA.toNat = a) (heq : s.fl = flEq) :
      Effect s (.jne opA) (s.advance 2)
  | hlt : Effect s .hlt (s.halt .hlt)
  | indexFault {i : Instr} {b : Byte} (hb : i.badOperand = some b) :
      Effect s i (s.halt (.registerIndexFault b))

/-! ## Every execution has its effect -/

/-- Whatever checks one register operand has its effect if what follows the check has. -/
theorem effect_withReg {s : State} {i : Instr} {opA : Byte} {k : Fin Config.nreg → State}
    (hi : i.regOperands = [opA]) (hk : ∀ a : Fin Config.nreg, opA.toNat = a → Effect s i (k a)) :
    Effect s i (withReg opA s k) := by
  rcases withReg_cases opA s k with ⟨a, ha, h⟩ | ⟨hn, h⟩ <;> rw [h]
  · exact hk a ha
  · exact .indexFault (by simp [Instr.badOperand, hi, (regByteOk_eq_false_iff _).2 hn])

/-- The same of two register operands, the first of them checked first. -/
theorem effect_withRegs {s : State} {i : Instr} {opA opB : Byte} {k : Fin Config.nreg → Fin Config.nreg → State}
    (hi : i.regOperands = [opA, opB])
    (hk : ∀ a b : Fin Config.nreg, opA.toNat = a → opB.toNat = b → Effect s i (k a b)) :
    Effect s i (withRegs opA opB s k) := by
  rcases withRegs_cases opA opB s k with ⟨a, b, ha, hb, h⟩ | ⟨c, hc, hwhich, h⟩ <;> rw [h]
  · exact hk a b ha hb
  · refine .indexFault ?_
    have hbad := (regByteOk_eq_false_iff c).2 hc
    rcases hwhich with rfl | ⟨hA, rfl⟩
    · simp [Instr.badOperand, hi, hbad]
    · simp [Instr.badOperand, hi, hbad, (regByteOk_iff opA).2 hA]

/-- A push that does not check its cell always goes on. -/
theorem stackPush_false (v : Byte) (s : State) (k : State → State) :
    stackPush false v s k = k ((s.setSp (s.sp - 1)).memWrite (s.sp - 1) v) := rfl

/-- Every instruction answers a next state in every state, and that state is its effect. -/
theorem exec_effect (i : Instr) (s : State) : ∃ t, exec i s = .next t ∧ Effect s i t := by
  cases i with
  | ldi opA imm => exact ⟨_, rfl, effect_withReg rfl fun _ ha => .ldi ha⟩
  | prn opA => exact ⟨_, rfl, effect_withReg rfl fun _ ha => .prn ha⟩
  | mul opA opB => exact ⟨_, rfl, effect_withRegs rfl fun _ _ ha hb => .mul ha hb⟩
  | add opA opB => exact ⟨_, rfl, effect_withRegs rfl fun _ _ ha hb => .add ha hb⟩
  | push opA =>
    refine ⟨_, rfl, effect_withReg rfl fun a ha => ?_⟩
    by_cases hz : s.memRead (s.sp - 1) = 0
    · rw [stackPush_true_of_zero hz]
      exact .push ha hz
    · rw [stackPush_true_of_ne_zero hz]
      exact .pushOverflow ha hz
  | pop opA => exact ⟨_, rfl, effect_withReg rfl fun _ ha => .pop ha⟩
  | call opA => exact ⟨_, rfl, effect_withReg rfl fun _ ha => .call ha⟩
  | ret => exact ⟨_, rfl, .ret⟩
  | cmp opA opB => exact ⟨_, rfl, effect_withRegs rfl fun _ _ ha hb => .cmp ha hb⟩
  | jmp opA => exact ⟨_, rfl, effect_withReg rfl fun _ ha => .jmp ha⟩
  | jeq opA =>
    refine ⟨_, rfl, effect_withReg rfl fun a ha => ?_⟩
    by_cases heq : s.fl = flEq
    · simpa [isEqual, heq] using Effect.jeqTaken ha heq
    · simpa [isEqual, heq] using Effect.jeqFalls ha heq
  | jne opA =>
    refine ⟨_, rfl, effect_withReg rfl fun a ha => ?_⟩
    by_cases heq : s.fl = flEq
    · simpa [isEqual, heq] using Effect.jneFalls ha heq
    · simpa [isEqual, heq] using Effect.jneTaken ha heq
  | hlt => exact ⟨_, rfl, .hlt⟩

/-! ## Every effect is executed -/

theorem withReg_of_eq {opA : Byte} {s : State} {k : Fin Config.nreg → State} {a : Fin Config.nreg}
    (ha : opA.toNat = a) : withReg opA s k = k a := by
  rw [withReg_of_lt (ha ▸ a.isLt)]
  exact congrArg k (Fin.ext ha)

theorem withRegs_of_eq {opA opB : Byte} {s : State} {k : Fin Config.nreg → Fin Config.nreg → State}
    {a b : Fin Config.nreg} (ha : opA.toNat = a) (hb : opB.toNat = b) : withRegs opA opB s k = k a b := by
  rw [withRegs, withReg_of_eq ha, withReg_of_eq hb]

theorem jumpIf_of_eq {taken : Bool} {opA : Byte} {s : State} {a : Fin Config.nreg} (ha : opA.toNat = a) :
    jumpIf taken opA s = if taken then s.setPc (s.readReg a) else s.advance 2 := withReg_of_eq ha

/-- Whatever completes or overflows has operands that name registers. -/
theorem Effect.wf_or_indexFault {s t : State} {i : Instr} (e : Effect s i t) :
    i.wf = true ∨ ∃ b, i.badOperand = some b ∧ t = s.halt (.registerIndexFault b) := by
  cases e with
  | indexFault hb => exact .inr ⟨_, hb, rfl⟩
  | ret | hlt => exact .inl rfl
  | ldi ha | prn ha | push ha _ | pushOverflow ha _ | pop ha | call ha | jmp ha | jeqTaken ha _
  | jeqFalls ha _ | jneTaken ha _ | jneFalls ha _ =>
    exact .inl (by simp [Instr.wf, regByteOk_iff, ha])
  | mul ha hb | add ha hb | cmp ha hb => exact .inl (by simp [Instr.wf, regByteOk_iff, ha, hb])

/-- A register operand above 7 faults in every instruction that has one. -/
theorem exec_of_badOperand {i : Instr} {b : Byte} (hb : i.badOperand = some b) (s : State) :
    exec i s = .next (s.halt (.registerIndexFault b)) := by
  obtain ⟨t, ht, e⟩ := exec_effect i s
  rcases e.wf_or_indexFault with hwf | ⟨b', hb', rfl⟩
  · rw [(Instr.badOperand_eq_none_iff i).2 hwf] at hb
    cases hb
  · rw [ht, Option.some.inj (hb.symm.trans hb')]

theorem exec_of_effect {s t : State} {i : Instr} (e : Effect s i t) : exec i s = .next t := by
  cases e with
  | ldi ha | prn ha | pop ha | call ha | jmp ha => exact congrArg Host.Outcome.next (withReg_of_eq ha)
  | mul ha hb | add ha hb | cmp ha hb => exact congrArg Host.Outcome.next (withRegs_of_eq ha hb)
  | push ha hz =>
    exact congrArg Host.Outcome.next ((withReg_of_eq ha).trans (stackPush_true_of_zero hz))
  | pushOverflow ha hne =>
    exact congrArg Host.Outcome.next ((withReg_of_eq ha).trans (stackPush_true_of_ne_zero hne))
  | jeqTaken ha h | jeqFalls ha h => simp [exec, execJeq, jumpIf_of_eq ha, isEqual, h]
  | jneTaken ha h | jneFalls ha h => simp [exec, execJne, jumpIf_of_eq ha, isEqual, h]
  | ret | hlt => rfl
  | indexFault hb => exact exec_of_badOperand hb s

/-- The execution function and the effect relation say the same. -/
theorem exec_next_iff {s t : State} {i : Instr} : exec i s = .next t ↔ Effect s i t := by
  refine ⟨fun h => ?_, exec_of_effect⟩
  obtain ⟨t', ht', e⟩ := exec_effect i s
  cases ht'.symm.trans h
  exact e

/-! ## What an effect does to each part of the state -/

namespace Effect

variable {s t : State} {i : Instr}

/-- An instruction keeps `run`, or halts the machine in one of three ways and changes nothing else. -/
theorem run_cases (e : Effect s i t) :
    t.run = s.run ∨ (i = .hlt ∧ t = s.halt .hlt) ∨
      (i.mnemonic = .push ∧ s.memRead (s.sp - 1) ≠ 0 ∧ t = s.halt .stackOverflow) ∨
      (∃ b, i.badOperand = some b ∧ t = s.halt (.registerIndexFault b)) := by
  cases e with
  | hlt => exact .inr (.inl ⟨rfl, rfl⟩)
  | pushOverflow _ hne => exact .inr (.inr (.inl ⟨rfl, hne, rfl⟩))
  | indexFault hb => exact .inr (.inr (.inr ⟨_, hb, rfl⟩))
  | _ => exact .inl rfl

/-- An instruction whose operands name registers, other than HLT and PUSH, keeps `run`. -/
theorem run_eq_of_wf (e : Effect s i t) (hwf : i.wf = true) (hhlt : i.mnemonic ≠ .hlt)
    (hpush : i.mnemonic ≠ .push) : t.run = s.run := by
  rcases e.run_cases with h | ⟨rfl, _⟩ | ⟨h, _⟩ | ⟨b, hb, _⟩
  · exact h
  · exact absurd rfl hhlt
  · exact absurd h hpush
  · simp [(Instr.badOperand_eq_none_iff i).2 hwf] at hb

/-- Where `run` changes, nothing else does. -/
theorem eq_halt_of_run_ne (e : Effect s i t) (hne : t.run ≠ s.run) : ∃ c, t = s.halt c := by
  rcases e.run_cases with h | ⟨_, h⟩ | ⟨_, _, h⟩ | ⟨_, _, h⟩
  · exact absurd h hne
  all_goals exact ⟨_, h⟩

/-- An instruction with an operand above 7 changes nothing but `run`. -/
theorem eq_halt_of_not_wf (e : Effect s i t) (hwf : i.wf = false) : ∃ c, t = s.halt c := by
  rcases e.wf_or_indexFault with h | ⟨b, _, h⟩
  · rw [hwf] at h
    cases h
  · exact ⟨_, h⟩

/-- Only the destination register changes. -/
theorem readReg_eq (e : Effect s i t) {r : Fin Config.nreg} (hr : ∀ d, i.destOperand = some d → d.toNat ≠ r) :
    t.readReg r = s.readReg r := by
  cases e with
  | ldi ha | mul ha _ | add ha _ | pop ha =>
    have hne := Fin.val_ne_iff.1 (ha ▸ (hr _ rfl).symm)
    simp [State.readReg_writeReg_ne _ _ hne]
  | _ => simp

/-- Memory changes only by one store, at the instruction's own address. -/
theorem mem_cases (e : Effect s i t) :
    t.mem = s.mem ∨ ∃ a v, s.storeAddress i = some a ∧ t.mem = (s.memWrite a v).mem := by
  cases e with
  | push _ _ | call _ => exact .inr ⟨s.sp - 1, _, rfl, rfl⟩
  | pop _ => exact .inr ⟨s.sp, 0, rfl, rfl⟩
  | _ => exact .inl rfl

/-- Every byte outside the cell stored to reads as before. -/
theorem memRead_eq (e : Effect s i t) {b : Byte} (hb : ∀ a, s.storeAddress i = some a → b ≠ a) :
    t.memRead b = s.memRead b := by
  rcases e.mem_cases with h | ⟨a, v, ha, h⟩
  · rw [State.memRead, h, State.memRead]
  · rw [State.memRead, h]
    exact State.memRead_memWrite_ne s v (hb a ha)

/-- CMP alone changes the flags. -/
theorem fl_eq (e : Effect s i t) (hcmp : i.mnemonic ≠ .cmp) : t.fl = s.fl := by
  cases e with
  | cmp _ _ => exact absurd rfl hcmp
  | _ => rfl

/-- What CMP leaves in the flags is the comparator's answer. -/
theorem fl_cases (e : Effect s i t) : t.fl = s.fl ∨ ∃ va vb, t.fl = compareFlags va vb := by
  cases e with
  | cmp _ _ => exact .inr ⟨_, _, rfl⟩
  | _ => exact .inl rfl

/-- `sp` moves by the instruction's own step or not at all. -/
theorem sp_cases (e : Effect s i t) : t.sp = s.sp ∨ t.sp = s.sp + i.spStep := by
  cases e with
  | push _ _ | call _ => exact .inr (BitVec.sub_eq_add_neg s.sp 1)
  | pop _ | ret => exact .inr rfl
  | _ => exact .inl rfl

theorem sp_eq (e : Effect s i t) (h : i.spStep = 0) : t.sp = s.sp := by
  simpa [h] using e.sp_cases

/-- PRN alone changes the output trace. -/
theorem out_eq (e : Effect s i t) (hprn : i.mnemonic ≠ .prn) : t.out = s.out := by
  cases e with
  | prn _ => exact absurd rfl hprn
  | _ => rfl

/-- The invariant of the machine is kept: a store keeps the canonical form, the comparator's answers are legal. -/
theorem inv (e : Effect s i t) (h : Inv s) : Inv t := by
  obtain ⟨hmem, hfl⟩ := h
  constructor
  · rcases e.mem_cases with ht | ⟨a, v, _, ht⟩ <;> rw [ht]
    · exact hmem
    · exact State.wf_memWrite hmem a v
  · rcases e.fl_cases with ht | ⟨va, vb, ht⟩ <;> rw [ht]
    · exact hfl
    · exact compareFlags_legal va vb

/-- Where neither CMP nor a conditional jump is executed, the flags are carried along unread. -/
theorem with_fl (e : Effect s i t) (f : FlagBits) (hcmp : i.mnemonic ≠ .cmp) (hjeq : i.mnemonic ≠ .jeq)
    (hjne : i.mnemonic ≠ .jne) : Effect { s with fl := f } i { t with fl := f } := by
  cases e with
  | ldi ha => exact .ldi ha
  | prn ha => exact .prn ha
  | mul ha hb => exact .mul ha hb
  | add ha hb => exact .add ha hb
  | push ha hz => exact .push ha hz
  | pushOverflow ha hne => exact .pushOverflow ha hne
  | pop ha => exact .pop ha
  | call ha => exact .call ha
  | ret => exact .ret
  | cmp _ _ => exact absurd rfl hcmp
  | jmp ha => exact .jmp ha
  | jeqTaken _ _ | jeqFalls _ _ => exact absurd rfl hjeq
  | jneTaken _ _ | jneFalls _ _ => exact absurd rfl hjne
  | hlt => exact .hlt
  | indexFault hb => exact .indexFault hb

/-- A conditional jump reads of the flags only whether they are `FL_EQ`. -/
theorem jump_with_fl (e : Effect s i t) {f : FlagBits} (hj : i.mnemonic = .jeq ∨ i.mnemonic = .jne)
    (hf : f = flEq ↔ s.fl = flEq) : Effect { s with fl := f } i { t with fl := f } := by
  cases e with
  | jeqTaken ha heq => exact .jeqTaken ha (hf.2 heq)
  | jeqFalls ha hne => exact .jeqFalls ha (mt hf.1 hne)
  | jneTaken ha hne => exact .jneTaken ha (mt hf.1 hne)
  | jneFalls ha heq => exact .jneFalls ha (hf.2 heq)
  | indexFault hb => exact .indexFault hb
  | _ => simp [Instr.mnemonic] at hj

/-- Where no stack instruction is executed, `sp` is carried along unread. -/
theorem with_sp (e : Effect s i t) (v : Byte) (h : i.spStep = 0) :
    Effect { s with sp := v } i { t with sp := v } := by
  cases e with
  | ldi ha => exact .ldi ha
  | prn ha => exact .prn ha
  | mul ha hb => exact .mul ha hb
  | add ha hb => exact .add ha hb
  | push _ _ | pushOverflow _ _ | pop _ | call _ | ret => exact absurd h (by simp [Instr.spStep])
  | cmp ha hb => exact .cmp ha hb
  | jmp ha => exact .jmp ha
  | jeqTaken ha heq => exact .jeqTaken ha heq
  | jeqFalls ha hne => exact .jeqFalls ha hne
  | jneTaken ha hne => exact .jneTaken ha hne
  | jneFalls ha heq => exact .jneFalls ha heq
  | hlt => exact .hlt
  | indexFault hb => exact .indexFault hb

end Effect

end Machine
end Sys2Proof
end

section
/-! The state family (10_state.md): the invariant and the halts of a step, what reads and writes the
registers, the flags and `sp`, and the frames of the instructions. -/

namespace Sys2Proof.Machine

/-- Settles O15: the fetched instruction keeps the invariant, and fault entry changes neither memory nor `fl`. -/
theorem stepKeepsInv : Obligations.StepKeepsInv := by
  intro s t hinv hstep
  obtain ⟨_, ⟨i, _, _, hexec⟩ | ⟨_, rfl⟩⟩ := step_next_cases hstep
  · exact (exec_next_iff.1 hexec).inv hinv
  · simpa [Inv] using hinv

/-- An operand byte of the fetched instruction is one of the two bytes after its opcode. -/
theorem mem_operandBytes_of_fetchInstr {s : State} {i : Instr} {rest : List Byte} {b : Byte}
    (hf : fetchInstr s = .ok (i, rest)) (hb : b ∈ operandBytes i) :
    b = s.memRead (s.pc + 1) ∨ b = s.memRead (s.pc + 2) := by
  rw [(fetchInstr_bytes hf).2] at hb
  simpa using List.mem_of_mem_take hb

/-- Settles O16: the halts of the fetched instruction (`Effect.run_cases`), and the unmapped opcode. -/
theorem haltsArePreciseAndExplained : Obligations.HaltsArePreciseAndExplained := by
  intro s t c hstep hhalt
  obtain ⟨hrun, ⟨i, rest, hf, hexec⟩ | ⟨hnone, rfl⟩⟩ := step_next_cases hstep
  · obtain ⟨hop, _⟩ := fetchInstr_bytes hf
    rcases (exec_next_iff.1 hexec).run_cases with h | ⟨rfl, rfl⟩ | ⟨hm, hne, rfl⟩ | ⟨b, hb, rfl⟩
    · rw [h, hrun] at hhalt
      cases hhalt
    · cases hhalt
      exact .inl ⟨rfl, hop.symm, rfl⟩
    · cases hhalt
      exact .inr (.inr (.inl ⟨rfl, by rw [← hop, hm], hne, rfl⟩))
    · cases hhalt
      obtain ⟨hgt, hmem⟩ := Instr.badOperand_some hb
      exact .inr (.inr (.inr ⟨b, rfl, Nat.lt_of_not_ge fun h => hgt (Nat.lt_succ_of_le h),
        mem_operandBytes_of_fetchInstr hf hmem, rfl⟩))
  · cases hhalt
    exact .inr (.inl ⟨rfl, lookupOpcode_none.1 hnone, rfl⟩)

/-- Settles O24: the register laws of `writeReg`, `setSp` and `setFl`, and no index fault where every operand
names a register. -/
theorem registersAreOrdinary : Obligations.RegistersAreOrdinary := by
  refine ⟨fun s i v =>
      ⟨State.readReg_writeReg_self s i v, fun _ hj => State.readReg_writeReg_ne s v hj, rfl, rfl⟩,
    fun s i v f => ⟨rfl, rfl⟩, fun s t i b hwf hrun hexec hfault => ?_⟩
  rcases (exec_next_iff.1 hexec).run_cases with h | ⟨_, rfl⟩ | ⟨_, _, rfl⟩ | ⟨b', hb', _⟩
  · rw [h, hrun] at hfault
    cases hfault
  · cases hfault
  · cases hfault
  · simp [(Instr.badOperand_eq_none_iff i).2 hwf] at hb'

/-- CMP overwrites the whole of `fl`, whatever it held. -/
theorem exec_cmp_with_fl {opA opB : Byte} (hwf : (Instr.cmp opA opB).wf = true) (s : State) (f : FlagBits) :
    exec (.cmp opA opB) { s with fl := f } = exec (.cmp opA opB) s := by
  obtain ⟨hA, hB⟩ : opA.toNat < Config.nreg ∧ opB.toNat < Config.nreg := by
    simpa only [Instr.wf, Bool.and_eq_true, regByteOk_iff] using hwf
  rw [exec_of_effect (.cmp (a := ⟨_, hA⟩) (b := ⟨_, hB⟩) rfl rfl),
    exec_of_effect (.cmp (a := ⟨_, hA⟩) (b := ⟨_, hB⟩) rfl rfl)]
  rfl

/-- Settles O25: the frame of `fl`, and its reads by the cases of the effect. -/
theorem onlyCmpWritesFlagsOnlyJumpsReadThem : Obligations.OnlyCmpWritesFlagsOnlyJumpsReadThem :=
  ⟨fun _ _ _ hcmp h => (exec_next_iff.1 h).fl_eq hcmp,
    fun _ _ s f hwf => exec_cmp_with_fl hwf s f,
    fun _ _ _ f hcmp hjeq hjne h => exec_of_effect ((exec_next_iff.1 h).with_fl f hcmp hjeq hjne),
    fun _ _ _ _ hj hf h => exec_of_effect ((exec_next_iff.1 h).jump_with_fl hj hf)⟩

/-- Settles O26: `sp` moves by the instruction's own step, which is zero for all but the four. -/
theorem onlyStackInstructionsTouchSp : Obligations.OnlyStackInstructionsTouchSp := by
  refine ⟨fun i s t h => ?_, fun i s t v hpush hcall hpop hret h => ?_⟩
  · rcases (exec_next_iff.1 h).sp_cases with hsp | hsp
    · exact .inl hsp
    · cases i <;> simp [hsp, Instr.spStep, Instr.mnemonic, BitVec.sub_eq_add_neg]
  · have hstep : i.spStep = 0 := by
      cases i <;> simp [Instr.mnemonic, Instr.spStep] at hpush hcall hpop hret ⊢
    exact exec_of_effect ((exec_next_iff.1 h).with_sp v hstep)

/-! ## Frames -/

/-- Settles O50: the frames of the fields, LDI, MUL and ADD having `opA` as their destination. -/
theorem ldiMulAddFrame : Obligations.LdiMulAddFrame := by
  intro opA opB i s t hi h
  have e := exec_next_iff.1 h
  obtain ⟨hdest, hsp, hstore, hcmp, hprn, hhlt, hpush⟩ :
      i.destOperand = some opA ∧ i.spStep = 0 ∧ s.storeAddress i = none ∧ i.mnemonic ≠ .cmp ∧
        i.mnemonic ≠ .prn ∧ i.mnemonic ≠ .hlt ∧ i.mnemonic ≠ .push := by
    simp only [List.mem_cons, List.not_mem_nil, or_false] at hi
    rcases hi with rfl | rfl | rfl <;> exact ⟨rfl, rfl, rfl, nofun, nofun, nofun, nofun⟩
  refine ⟨fun r hr => e.readReg_eq (by simpa [hdest] using hr), e.sp_eq hsp, e.fl_eq hcmp, e.out_eq hprn,
    fun b => e.memRead_eq (by simp [hstore]), fun hwf => e.run_eq_of_wf hwf hhlt hpush, fun hwf r => ?_⟩
  obtain ⟨c, rfl⟩ := e.eq_halt_of_not_wf hwf
  rfl

/-- Settles O51: the frames of the fields, none of the six having a destination, a store or a step of `sp`. -/
theorem noRegisterNoStoreFrame : Obligations.NoRegisterNoStoreFrame := by
  intro opA opB i s t hi h
  have e := exec_next_iff.1 h
  obtain ⟨hdest, hsp, hstore, hpush⟩ :
      i.destOperand = none ∧ i.spStep = 0 ∧ s.storeAddress i = none ∧ i.mnemonic ≠ .push := by
    simp only [List.mem_cons, List.not_mem_nil, or_false] at hi
    rcases hi with rfl | rfl | rfl | rfl | rfl | rfl <;> exact ⟨rfl, rfl, rfl, nofun⟩
  exact ⟨fun r => e.readReg_eq (by simp [hdest]), e.sp_eq hsp, fun b => e.memRead_eq (by simp [hstore]),
    e.fl_eq, e.out_eq, fun hhlt hwf => e.run_eq_of_wf hwf hhlt hpush⟩

/-- Settles O52: the frames of the fields, PUSH and CALL storing at `sp -8 1`; where `run` changes, the state
is only halted. -/
theorem pushCallFrame : Obligations.PushCallFrame := by
  intro opA i s t hi h
  have e := exec_next_iff.1 h
  obtain ⟨hdest, hstore, hcmp, hprn⟩ : i.destOperand = none ∧ s.storeAddress i = some (s.sp - 1) ∧
      i.mnemonic ≠ .cmp ∧ i.mnemonic ≠ .prn := by
    simp only [List.mem_cons, List.not_mem_nil, or_false] at hi
    rcases hi with rfl | rfl <;> exact ⟨rfl, rfl, nofun, nofun⟩
  refine ⟨fun r => e.readReg_eq (by simp [hdest]), e.fl_eq hcmp, e.out_eq hprn, ?_, fun hne => ?_⟩
  · rintro a rfl b hb
    exact e.memRead_eq (by simpa [hstore] using hb)
  · obtain ⟨c, rfl⟩ := e.eq_halt_of_run_ne hne
    exact ⟨rfl, rfl, fun _ => rfl⟩

/-- Settles O53: the frames of the fields, POP storing at `sp` and having `opA` as its destination. -/
theorem popFrame : Obligations.PopFrame := by
  intro opA s t h
  have e := exec_next_iff.1 h
  have hwf_iff : (Instr.pop opA).wf = true ↔ opA.toNat < Config.nreg := regByteOk_iff opA
  refine ⟨fun r hr => e.readReg_eq (by simpa [Instr.destOperand] using hr), e.fl_eq nofun, e.out_eq nofun, ?_,
    fun hle => e.run_eq_of_wf (hwf_iff.2 (Nat.lt_succ_of_le hle)) nofun nofun, fun hgt => ?_⟩
  · rintro a rfl b hb
    exact e.memRead_eq (by simpa [State.storeAddress] using hb)
  · obtain ⟨c, rfl⟩ := e.eq_halt_of_not_wf ((regByteOk_eq_false_iff opA).2 (Nat.not_lt.2 hgt))
    exact ⟨rfl, rfl, fun _ => rfl⟩

/-- Settles O54: the frames of the fields, RET having no operand and no store. -/
theorem retFrame : Obligations.RetFrame := by
  intro s t h
  have e := exec_next_iff.1 h
  exact ⟨fun r => e.readReg_eq nofun, e.fl_eq nofun, e.out_eq nofun, e.run_eq_of_wf rfl nofun nofun,
    fun b => e.memRead_eq nofun⟩

end Sys2Proof.Machine
end

section
/-! The memory family (20_memory.md): the store of one byte, by the laws of read after write and of the
canonical form. -/

namespace Sys2Proof.Machine

/-- Read after write on the state, at every address at once (R51). -/
theorem State.memRead_memWrite (s : State) (a v e : Byte) :
    (s.memWrite a v).memRead e = if e = a then v else s.memRead e := by
  split
  · next h => rw [h, State.memRead_memWrite_self]
  · next h => exact State.memRead_memWrite_ne s v h

/-- Settles O22: read after write, the update of `mem` alone by definition, and `State.wf_memWrite`. -/
theorem memWriteThenRead : Obligations.MemWriteThenRead := fun s a v =>
  ⟨s.memRead_memWrite a v, rfl, fun h => State.wf_memWrite h a v⟩

end Sys2Proof.Machine
end

section
/-! The encoding family (30_encoding.md): what the decoder reads is the encoding of what it answers, under any
opcode map (`decodeWith_eq_ok_iff`), and the first bytes that the machine's map accepts. -/

namespace Sys2Proof

/-! ## The operand bytes -/

/-- Format R takes exactly the first byte. -/
theorem takeOne_eq_ok {k : Byte → Instr} {bytes rest : List Byte} {i : Instr}
    (h : takeOne k bytes = .ok (i, rest)) : ∃ a, i = k a ∧ bytes = a :: rest := by
  cases bytes with
  | nil => cases h
  | cons a _ =>
    cases h
    exact ⟨a, rfl, rfl⟩

/-- Formats RR and RI take exactly the first two bytes. -/
theorem takeTwo_eq_ok {k : Byte → Byte → Instr} {bytes rest : List Byte} {i : Instr}
    (h : takeTwo k bytes = .ok (i, rest)) : ∃ a b, i = k a b ∧ bytes = a :: b :: rest := by
  match bytes, h with
  | a :: b :: _, h =>
    cases h
    exact ⟨a, b, rfl, rfl⟩

/-- The operand reader undoes `operandBytes`. -/
theorem takeOperands_operandBytes (i : Instr) (rest : List Byte) :
    takeOperands (operandBytes i ++ rest) i.mnemonic = .ok (i, rest) := by
  cases i <;> rfl

/-- What the operand reader answers has the mnemonic it was given, and the bytes read are its operand bytes. -/
theorem takeOperands_eq_ok {m : Mnemonic} {bytes rest : List Byte} {i : Instr}
    (h : takeOperands bytes m = .ok (i, rest)) : i.mnemonic = m ∧ bytes = operandBytes i ++ rest := by
  cases m with
  | ret | hlt =>
    cases h
    exact ⟨rfl, rfl⟩
  | prn | push | pop | call | jmp | jeq | jne =>
    obtain ⟨a, rfl, rfl⟩ := takeOne_eq_ok h
    exact ⟨rfl, rfl⟩
  | ldi | mul | add | cmp =>
    obtain ⟨a, b, rfl, rfl⟩ := takeTwo_eq_ok h
    exact ⟨rfl, rfl⟩

/-- Two bytes are operand bytes enough for every mnemonic (R71). -/
theorem exists_takeOperands_eq_ok (a b : Byte) (rest : List Byte) (m : Mnemonic) :
    ∃ i r, takeOperands (a :: b :: rest) m = .ok (i, r) := by
  cases m <;> exact ⟨_, _, rfl⟩

/-! ## The decoder -/

theorem decodeWith_of_lookup_some {f : Mnemonic → Byte} {op : Byte} {m : Mnemonic}
    (h : lookupOpcode f op = some m) (rest : List Byte) :
    decodeWith f (op :: rest) = takeOperands rest m := by
  rw [decodeWith, h]

theorem decodeWith_of_lookup_none {f : Mnemonic → Byte} {op : Byte} (h : lookupOpcode f op = none)
    (rest : List Byte) : decodeWith f (op :: rest) = .error (.unmappedOpcode op) := by
  rw [decodeWith, h]

/-- Bytes decode to an instruction exactly if they are its encoding followed by the rest and no earlier
mnemonic of the map has its opcode byte. -/
theorem decodeWith_eq_ok_iff {f : Mnemonic → Byte} {bytes rest : List Byte} {i : Instr} :
    decodeWith f bytes = .ok (i, rest) ↔
      lookupOpcode f (f i.mnemonic) = some i.mnemonic ∧ bytes = encodeWith f i ++ rest := by
  constructor
  · intro h
    cases bytes with
    | nil => cases h
    | cons op tail =>
      cases hl : lookupOpcode f op with
      | none =>
        rw [decodeWith_of_lookup_none hl] at h
        cases h
      | some m =>
        rw [decodeWith_of_lookup_some hl] at h
        obtain ⟨rfl, rfl⟩ := takeOperands_eq_ok h
        obtain rfl := lookupOpcode_some hl
        exact ⟨hl, rfl⟩
  · rintro ⟨hl, rfl⟩
    exact (decodeWith_of_lookup_some hl _).trans (takeOperands_operandBytes i rest)

/-- Settles O4: under an injective map the lookup undoes the map. -/
theorem decodeEncodeAnyMap : Obligations.DecodeEncodeAnyMap := fun _ ⟨hinj, _⟩ i _ =>
  decodeWith_eq_ok_iff.2 ⟨lookupOpcode_self hinj i.mnemonic, rfl⟩

/-- Settles O5, for any map, injective or not. -/
theorem decodedBytesAreTheEncoding : Obligations.DecodedBytesAreTheEncoding := fun _ _ _ _ h =>
  (decodeWith_eq_ok_iff.1 h).2

/-! ## The thirteen opcode bytes -/

/-- The bytes of R74, in the order of its table. -/
theorem map_opc_all : Mnemonic.all.map opc =
    [0x82#8, 0x47, 0xA2, 0xA0, 0x45, 0x46, 0x50, 0x11, 0xA7, 0x54, 0x55, 0x56, 0x01] := rfl

theorem lookupOpcode_eq_none_of_not_mem {f : Mnemonic → Byte} {op : Byte} (h : op ∉ Mnemonic.all.map f) :
    lookupOpcode f op = none :=
  lookupOpcode_none.2 fun m hm => h (List.mem_map.2 ⟨m, m.mem_all, hm⟩)

/-- Settles O6: outside the map's values the lookup fails; at one of them it finds the mnemonic, two bytes
serve its operands, and the instruction answered has that mnemonic. -/
theorem decoderAcceptsThirteenBytes : Obligations.DecoderAcceptsThirteenBytes := by
  intro op a b rest
  rw [← map_opc_all]
  refine ⟨fun h => decodeWith_of_lookup_none (lookupOpcode_eq_none_of_not_mem h) rest, fun h => ?_⟩
  obtain ⟨m, _, rfl⟩ := List.mem_map.1 h
  obtain ⟨i, r, hi⟩ := exists_takeOperands_eq_ok a b rest m
  obtain ⟨rfl, _⟩ := takeOperands_eq_ok hi
  exact ⟨i, r, (decodeWith_of_lookup_some (lookupOpcode_opc i.mnemonic) _).trans hi, rfl⟩

end Sys2Proof
end

section
/-! The execute cycle family (40_execute_cycle_hlt.md): what `step` answers in each kind of state, and what a run
does once its state no longer moves. -/

namespace Sys2Proof

/-- The machine's own map shadows no mnemonic, so the bytes alone settle what decodes. -/
theorem decode_eq_ok_iff {bytes rest : List Byte} {i : Instr} :
    decode bytes = .ok (i, rest) ↔ bytes = encode i ++ rest :=
  decodeWith_eq_ok_iff.trans (and_iff_right (lookupOpcode_opc i.mnemonic))

theorem decode_encode_append (i : Instr) (rest : List Byte) : decode (encode i ++ rest) = .ok (i, rest) :=
  decode_eq_ok_iff.2 rfl

namespace Machine

/-! ## The fetch -/

/-- A mapped opcode is fetched with as many of the next two bytes as its format has operands. -/
theorem fetchBytes_of_mapped {s : State} {m : Mnemonic} (h : lookupOpcode opc (s.memRead s.pc) = some m) :
    fetchBytes s =
      s.memRead s.pc :: [s.memRead (s.pc + 1), s.memRead (s.pc + 2)].take (operandCount m) := by
  simp only [fetchBytes, h]
  cases m <;> rfl

/-- The fetch delivers the instruction that the three bytes at `pc` decode to, however few of them it reads. -/
theorem fetchInstr_of_decode {s : State} {i : Instr} {rest : List Byte}
    (h : decode [s.memRead s.pc, s.memRead (s.pc + 1), s.memRead (s.pc + 2)] = .ok (i, rest)) :
    fetchInstr s = .ok (i, []) := by
  obtain ⟨hop, htail⟩ := List.cons.inj (decode_eq_ok_iff.1 h)
  have hoperands : [s.memRead (s.pc + 1), s.memRead (s.pc + 2)].take (operandCount i.mnemonic) = operandBytes i := by
    rw [htail, ← length_operandBytes]
    exact List.take_left
  have hbytes : fetchBytes s = encode i := by
    rw [fetchBytes_of_mapped (hop ▸ lookupOpcode_opc i.mnemonic), hoperands, hop]
    rfl
  rw [fetchInstr, hbytes, decode_eq_ok_iff, List.append_nil]

/-! ## The step -/

theorem step_of_halted {s : State} {c : Cause} (h : s.run = .halted c) : step s = .fault (.halted c) := by
  simp only [step, h, haltedOutcome]

theorem step_of_fetch {s : State} {i : Instr} {rest : List Byte} (hrun : s.run = .running)
    (hf : fetchInstr s = .ok (i, rest)) : step s = exec i s := by
  simp only [step, hrun, hf]

theorem step_of_unmapped {s : State} (hrun : s.run = .running)
    (hl : lookupOpcode opc (s.memRead s.pc) = none) :
    step s = .next (s.raise (.invalidInstruction (s.memRead s.pc))) := by
  simp only [step, hrun, fetchInstr_of_unmapped hl, execUnmapped]

theorem stepAccesses_of_unmapped {s : State} (hrun : s.run = .running)
    (hl : lookupOpcode opc (s.memRead s.pc) = none) : stepAccesses s = [.read s.pc] := by
  simp only [stepAccesses, hrun, fetchInstr_of_unmapped hl]

theorem causePorts_raise (s : State) (c : Cause) : causePorts (s.raise c) = some (c.code, c.info) := by
  simp only [causePorts, State.raise_run]

/-- Settles O8: the fetch delivers the instruction decoded, and the step is its execution. -/
theorem stepRunsDecodedInstruction : Obligations.StepRunsDecodedInstruction :=
  fun _ _ _ hrun hdec => step_of_fetch hrun (fetchInstr_of_decode hdec)

/-- Settles O9: the lookup fails, so the step is the entry of `InvalidInstruction`, after one read. -/
theorem stepOnUnmappedOpcode : Obligations.StepOnUnmappedOpcode := by
  intro s hrun hunmapped
  have hl : lookupOpcode opc (s.memRead s.pc) = none := lookupOpcode_none.2 hunmapped
  exact ⟨_, step_of_unmapped hrun hl, rfl, congrArg (Option.map Prod.snd) (causePorts_raise s _),
    stepAccesses_of_unmapped hrun hl⟩

/-- Settles O49: the effect of HLT, and its encoding. -/
theorem hltResult : Obligations.HltResult :=
  ⟨fun _ => exec_of_effect .hlt, fun rest => decode_encode_append .hlt rest⟩

/-! ## The run -/

/-- A state that no step leaves is the end of every run from it. -/
theorem runFor_eq_self {s : State} (h : ∀ t, step s = .next t → t = s) (n : Nat) : runFor n s = s := by
  induction n with
  | zero => rfl
  | succ n ih =>
    rw [runFor]
    split
    · next t ht => rw [h t ht, ih]
    · rfl
    · rfl

theorem runFor_succ_of_next {s t : State} (h : step s = .next t) (n : Nat) : runFor (n + 1) s = runFor n t := by
  rw [runFor, h]

/-- A run of `n + k` steps is a run of `k` steps from where `n` steps lead. -/
theorem runFor_add (n k : Nat) (s : State) : runFor (n + k) s = runFor k (runFor n s) := by
  induction n generalizing s with
  | zero => rw [Nat.zero_add, runFor]
  | succ n ih =>
    by_cases h : ∃ t, step s = .next t
    · obtain ⟨t, ht⟩ := h
      rw [Nat.add_right_comm, runFor_succ_of_next ht, runFor_succ_of_next ht, ih]
    · have hstuck : ∀ m, runFor m s = s := runFor_eq_self fun t ht => absurd ⟨t, ht⟩ h
      rw [hstuck, hstuck, hstuck]

theorem runFor_of_halted {s : State} {c : Cause} (h : s.run = .halted c) (n : Nat) : runFor n s = s :=
  runFor_eq_self (fun t ht => by rw [step_of_halted h] at ht; cases ht) n

/-- Settles O12: the run goes on from its halted state, which takes no step. -/
theorem haltIsFinalInRun : Obligations.HaltIsFinalInRun := by
  intro s n k c hhalt
  rw [runFor_add, runFor_of_halted hhalt]

theorem not_faulted_of_running {s : State} (h : s.run = .running) : ¬ Faulted s := by
  rintro ⟨c, hc, _⟩
  rw [h] at hc
  cases hc

/-- A JMP through a register that holds `pc` leads back to the same state. -/
theorem step_self_jump {s : State} {opA : Byte} {a : Fin Config.nreg} (hrun : s.run = .running)
    (hop : s.memRead s.pc = 0x54) (hA : s.memRead (s.pc + 1) = opA) (ha : opA.toNat = a)
    (htarget : s.readReg a = s.pc) : step s = .next s := by
  have hdec : decode [s.memRead s.pc, s.memRead (s.pc + 1), s.memRead (s.pc + 2)] =
      .ok (.jmp opA, [s.memRead (s.pc + 2)]) := by
    rw [hop, hA]
    exact decode_encode_append (.jmp opA) _
  have hsame : s.setPc (s.readReg a) = s := by rw [htarget, State.setPc]
  calc step s = exec (.jmp opA) s := stepRunsDecodedInstruction s _ _ hrun hdec
    _ = .next (s.setPc (s.readReg a)) := exec_of_effect (.jmp ha)
    _ = .next s := by rw [hsame]

/-- Settles O13: the self-jump's step leads to its own state, which is running. -/
theorem selfJumpRunsForEver : Obligations.SelfJumpRunsForEver := by
  intro s opA a hrun hop hA ha htarget
  have hself : ∀ n, runFor n s = s := runFor_eq_self fun t ht =>
    (Host.Outcome.next.inj ((step_self_jump hrun hop hA ha htarget).symm.trans ht)).symm
  refine ⟨hself, fun n => ?_⟩
  rw [hself n]
  exact not_faulted_of_running hrun

end Machine
end Sys2Proof
end

section
/-! The LDI and PRN family (41_load_print.md): the two next states by `Effect`, and the rendering of PRN's value
in the three ranges of a byte with one, two and three decimal digits. -/

namespace Sys2Proof

/-- Where the register operand checked first is above 7, it is the one the fault carries. -/
theorem Instr.badOperand_of_head {i : Instr} {opA : Byte} {ops : List Byte} (hi : i.regOperands = opA :: ops)
    (h : 7 < opA.toNat) : i.badOperand = some opA := by
  have hbad : regByteOk opA = false := (Machine.regByteOk_eq_false_iff opA).2 (Nat.not_lt.2 h)
  simp [Instr.badOperand, hi, hbad]

namespace Machine

/-- Settles O36: LDI's effect, the index fault, and the encoding of LDI. -/
theorem ldiResult : Obligations.LdiResult := fun opA opB s =>
  ⟨fun _ ha => exec_of_effect (.ldi ha),
    fun h => exec_of_badOperand (Instr.badOperand_of_head rfl h) s,
    decode_encode_append (.ldi opA opB)⟩

/-- Settles O37: PRN's effect, the index fault, and the encoding of PRN. -/
theorem prnResult : Obligations.PrnResult := fun opA s =>
  ⟨fun _ ha => exec_of_effect (.prn ha),
    fun h => exec_of_badOperand (Instr.badOperand_of_head rfl h) s,
    decode_encode_append (.prn opA)⟩

/-! ## The rendering of a value -/

theorem decimalDigits_of_lt_ten {v : Byte} (h : v.toNat < 10) :
    decimalDigits v = [v.toNat].map asciiDigit := by
  simp [decimalDigits, h]

theorem decimalDigits_of_lt_hundred {v : Byte} (hlo : 10 ≤ v.toNat) (hhi : v.toNat < 100) :
    decimalDigits v = [v.toNat / 10, v.toNat % 10].map asciiDigit := by
  simp [decimalDigits, Nat.not_lt.2 hlo, hhi]

theorem decimalDigits_of_hundred_le {v : Byte} (h : 100 ≤ v.toNat) :
    decimalDigits v = [v.toNat / 100, v.toNat / 10 % 10, v.toNat % 10].map asciiDigit := by
  have hten : ¬ v.toNat < 10 := by omega
  simp [decimalDigits, hten, Nat.not_lt.2 h]

/-- The rendering is the digits' ASCII bytes and the terminator (D11). -/
theorem renderPrn_of_digits {v : Byte} {ds : List Nat} (h : decimalDigits v = ds.map asciiDigit) :
    renderPrn v = ds.map (fun d => BitVec.ofNat 8 (0x30 + d)) ++ [0x0A] :=
  congrArg (· ++ Config.lineTerminator) h

/-- Settles O29: the digits of the value in each of its three ranges; the leading one is a quotient that the
range's lower bound keeps from being 0. -/
theorem prnRendersDecimal : Obligations.PrnRendersDecimal := by
  intro v
  have hv : v.toNat < 256 := v.isLt
  rcases Nat.lt_or_ge v.toNat 10 with hten | hten
  · refine ⟨_, by simp, ?_, by simp, ?_, renderPrn_of_digits (decimalDigits_of_lt_ten hten)⟩
    · simpa using hten
    · simp
  rcases Nat.lt_or_ge v.toNat 100 with hhundred | hhundred
  · refine ⟨_, by simp, ?_, ?_, ?_, renderPrn_of_digits (decimalDigits_of_lt_hundred hten hhundred)⟩
    · simp only [List.forall_mem_cons]
      exact ⟨by omega, by omega, by simp⟩
    · have hlead : v.toNat / 10 ≠ 0 := by omega
      exact fun _ h => hlead (Option.some.inj h)
    · simp only [List.foldl]
      omega
  · refine ⟨_, by simp, ?_, ?_, ?_, renderPrn_of_digits (decimalDigits_of_hundred_le hhundred)⟩
    · simp only [List.forall_mem_cons]
      exact ⟨by omega, by omega, by omega, by simp⟩
    · have hlead : v.toNat / 100 ≠ 0 := by omega
      exact fun _ h => hlead (Option.some.inj h)
    · simp only [List.foldl]
      omega

end Machine
end Sys2Proof
end

section
/-! The ALU family (42_alu.md): the value of each operation, and the next states of MUL and ADD by `Effect`. -/

namespace Sys2Proof

/-- `trunc8` keeps the low 8 bits (R8). -/
theorem toNat_trunc8 (n : Nat) : (trunc8 n).toNat = n % 256 := BitVec.toNat_ofNat n 8

/-- Where the first of two register operands is at most 7, the fault carries the second. -/
theorem Instr.badOperand_of_second {i : Instr} {opA opB : Byte} {ops : List Byte}
    (hi : i.regOperands = opA :: opB :: ops) (hA : opA.toNat ≤ 7) (hB : 7 < opB.toNat) :
    i.badOperand = some opB := by
  have hgood : regByteOk opA = true := (Machine.regByteOk_iff opA).2 (Nat.lt_succ_of_le hA)
  have hbad : regByteOk opB = false := (Machine.regByteOk_eq_false_iff opB).2 (Nat.not_lt.2 hB)
  simp [Instr.badOperand, hi, hgood, hbad]

namespace Machine

/-- Settles O33: ADD and MULTIPLY truncate the exact result. -/
theorem aluArithmetic : Obligations.AluArithmetic := fun va vb =>
  ⟨⟨_, rfl, toNat_trunc8 (va.toNat + vb.toNat)⟩, ⟨_, rfl, toNat_trunc8 (va.toNat * vb.toNat)⟩⟩

/-- NOT inverts each bit of the AND of its two operands (R126). -/
theorem getLsbD_nand (va vb : Byte) {i : Nat} (hi : i < 8) :
    (~~~(va &&& vb)).getLsbD i = !(va.getLsbD i && vb.getLsbD i) := by
  rw [BitVec.getLsbD_not, BitVec.getLsbD_and, decide_eq_true hi, Bool.true_and]

/-- Settles O34: three operations are bitwise as they stand; NOT is the complement of AND. -/
theorem aluBitwise : Obligations.AluBitwise := fun va vb =>
  ⟨_, _, _, _, rfl, rfl, rfl, rfl, BitVec.toNat_not, fun _ hi =>
    ⟨BitVec.getLsbD_and, BitVec.getLsbD_or, BitVec.getLsbD_xor, getLsbD_nand va vb hi⟩⟩

/-- Settles O38: MUL's effect, the index fault of each operand in turn, and the encoding of MUL. -/
theorem mulResult : Obligations.MulResult := fun opA opB s =>
  ⟨fun _ _ ha hb => exec_of_effect (.mul ha hb),
    fun hA => exec_of_badOperand (Instr.badOperand_of_head rfl hA) s,
    fun hA hB => exec_of_badOperand (Instr.badOperand_of_second rfl hA hB) s,
    decode_encode_append (.mul opA opB)⟩

/-- Settles O39: ADD's effect, the index fault of each operand in turn, and the encoding of ADD. -/
theorem addResult : Obligations.AddResult := fun opA opB s =>
  ⟨fun _ _ ha hb => exec_of_effect (.add ha hb),
    fun hA => exec_of_badOperand (Instr.badOperand_of_head rfl hA) s,
    fun hA hB => exec_of_badOperand (Instr.badOperand_of_second rfl hA hB) s,
    decode_encode_append (.add opA opB)⟩

end Machine
end Sys2Proof
end

section
/-! The stack family (43_stack.md): the next states of PUSH and POP by `Effect`, and the pair that copies a
register and leaves the stack as it was. -/

namespace Sys2Proof.Machine

/-- Settles O40: PUSH's two effects by its target cell, the index fault, and the encoding of PUSH. -/
theorem pushResult : Obligations.PushResult := fun opA s =>
  ⟨fun _ ha hz => exec_of_effect (.push ha hz),
    fun hA hne => exec_of_effect (.pushOverflow (a := ⟨opA.toNat, Nat.lt_succ_of_le hA⟩) rfl hne),
    fun h => exec_of_badOperand (Instr.badOperand_of_head rfl h) s,
    decode_encode_append (.push opA)⟩

/-- Settles O41: POP's effect, the index fault, and the encoding of POP. -/
theorem popResult : Obligations.PopResult := fun opA s =>
  ⟨fun _ ha => exec_of_effect (.pop ha),
    fun h => exec_of_badOperand (Instr.badOperand_of_head rfl h) s,
    decode_encode_append (.pop opA)⟩

/-- Zeroing a cell that was zero undoes, for every read, what was stored there in between. -/
theorem State.memRead_memWrite_zero_of_zero {s t : State} {a v : Byte} (hz : s.memRead a = 0)
    (hmem : t.mem = (s.memWrite a v).mem) (e : Byte) : (t.memWrite a 0).memRead e = s.memRead e := by
  rw [State.memRead_memWrite]
  split
  · next h => rw [h, hz]
  · next h => rw [State.memRead, hmem, ← State.memRead, State.memRead_memWrite_ne s v h]

/-- Settles O55: after the PUSH, the byte at `sp` is what `a` held; POP puts it in `b`, moves `sp` back and
zeroes the one cell that the PUSH wrote, which was zero before. -/
theorem pushPopRoundTrip : Obligations.PushPopRoundTrip := by
  intro s opA opB a b ha hb hz
  have hsp : s.sp - 1 + 1 = s.sp := BitVec.sub_add_cancel s.sp 1
  have hpc : s.pc + trunc8 2 + trunc8 2 = s.pc + 4 := BitVec.add_assoc s.pc 2 2
  refine ⟨_, _, exec_of_effect (.push ha hz), exec_of_effect (.pop hb), ?_, fun r hr => ?_, hsp, hpc, rfl, rfl,
    fun e => ?_⟩
  · simp
  · simp [State.readReg_writeReg_ne _ _ hr]
  · exact State.memRead_memWrite_zero_of_zero hz rfl e

end Sys2Proof.Machine
end

section
/-! The CALL and RET family (44_call_ret.md): the two next states by `Effect`, and the return from a CALL. -/

namespace Sys2Proof.Machine

/-- Settles O42: CALL's effect, the index fault, and the encoding of CALL. -/
theorem callResult : Obligations.CallResult := fun opA s =>
  ⟨fun _ ha => exec_of_effect (.call ha),
    fun h => exec_of_badOperand (Instr.badOperand_of_head rfl h) s,
    decode_encode_append (.call opA)⟩

/-- Settles O43: RET's effect, and its encoding. -/
theorem retResult : Obligations.RetResult :=
  ⟨fun _ => exec_of_effect .ret, decode_encode_append .ret⟩

/-- A CALL through a register leaves `sp` one lower and the address after it in the cell there (R150). -/
theorem call_sp_and_cell {s t : State} {opA : Byte} (hA : opA.toNat ≤ 7) (h : exec (.call opA) s = .next t) :
    t.sp = s.sp - 1 ∧ t.memRead t.sp = s.pc + 2 := by
  have hcall : Effect s (.call opA) _ := .call (a := ⟨opA.toNat, Nat.lt_succ_of_le hA⟩) rfl
  obtain rfl := Host.Outcome.next.inj ((exec_of_effect hcall).symm.trans h)
  exact ⟨rfl, State.memRead_memWrite_self (s.setSp (s.sp - 1)) (s.sp - 1) (s.pc + 2)⟩

/-- Settles O56: RET goes to the byte in the CALL's cell, one above the `sp` that the CALL left. -/
theorem callThenRetReturns : Obligations.CallThenRetReturns := by
  intro s t u opA hA hcall hsp hcell
  obtain ⟨htsp, htcell⟩ := call_sp_and_cell hA hcall
  refine ⟨_, exec_of_effect .ret, ?_, ?_⟩
  · calc u.memRead u.sp = t.memRead t.sp := by rw [hsp, hcell]
      _ = s.pc + 2 := htcell
  · calc u.sp + 1 = s.sp - 1 + 1 := by rw [hsp, htsp]
      _ = s.sp := BitVec.sub_add_cancel s.sp 1

end Sys2Proof.Machine
end

section
/-! The compare and branch family (45_compare_branch.md): the comparator's answer, the next states of CMP, JMP, JEQ
and JNE by `Effect`, and what the comparison decides about a later jump. -/

namespace Sys2Proof.Machine

/-- The comparator's answer at the bit positions of R27, compared as unsigned numbers (R160, D4, D5). -/
theorem compareFlags_eq_ite (va vb : Byte) :
    compareFlags va vb = if va = vb then 0b001 else if va.toNat > vb.toNat then 0b010 else 0b100 := rfl

/-- The comparator answers `FL_EQ` for equal values alone. -/
theorem compareFlags_eq_flEq_iff {va vb : Byte} : compareFlags va vb = flEq ↔ va = vb := by
  rcases compareFlags_cases va vb with ⟨heq, h⟩ | ⟨hgt, h⟩ | ⟨hlt, h⟩
  · exact iff_of_true h heq
  · exact iff_of_false (by rw [h]; decide) fun heq => hgt.ne (congrArg BitVec.toNat heq.symm)
  · exact iff_of_false (by rw [h]; decide) fun heq => hlt.ne (congrArg BitVec.toNat heq)

/-- A CMP of two registers leaves `FL_EQ` in the flags exactly if they hold the same value (R28, R160). -/
theorem cmp_fl_eq_flEq_iff {s t : State} {opA opB : Byte} {a b : Fin Config.nreg} (ha : opA.toNat = a)
    (hb : opB.toNat = b) (h : exec (.cmp opA opB) s = .next t) :
    t.fl = flEq ↔ s.readReg a = s.readReg b := by
  obtain rfl := Host.Outcome.next.inj ((exec_of_effect (.cmp ha hb)).symm.trans h)
  exact compareFlags_eq_flEq_iff

/-- Settles O58: the flags that the jumps test are those of the CMP, so each jump is taken or not by whether the
values compared were equal. -/
theorem cmpDecidesJumps : Obligations.CmpDecidesJumps := by
  intro s t u opA opB opC a b c ha hb hc hcmp hfl
  have htest : u.fl = flEq ↔ s.readReg a = s.readReg b := by rw [hfl, cmp_fl_eq_flEq_iff ha hb hcmp]
  refine ⟨fun heq => ?_, fun hne => ?_⟩
  · have hset : u.fl = flEq := htest.2 heq
    exact ⟨exec_of_effect (.jeqTaken hc hset), exec_of_effect (.jneFalls hc hset)⟩
  · have hclear : u.fl ≠ flEq := mt htest.1 hne
    exact ⟨exec_of_effect (.jneTaken hc hclear), exec_of_effect (.jeqFalls hc hclear)⟩

/-- Settles O45: CMP's effect with the comparator's answer written out, the index fault of each operand in turn,
and the encoding of CMP. -/
theorem cmpResult : Obligations.CmpResult := by
  refine fun opA opB s => ⟨fun a b ha hb => ?_,
    fun hA => exec_of_badOperand (Instr.badOperand_of_head rfl hA) s,
    fun hA hB => exec_of_badOperand (Instr.badOperand_of_second rfl hA hB) s,
    decode_encode_append (.cmp opA opB)⟩
  rw [← compareFlags_eq_ite]
  exact exec_of_effect (.cmp ha hb)

/-- Settles O46: JMP's effect, the index fault, and the encoding of JMP. -/
theorem jmpResult : Obligations.JmpResult := fun opA s =>
  ⟨fun _ ha => exec_of_effect (.jmp ha),
    fun h => exec_of_badOperand (Instr.badOperand_of_head rfl h) s,
    decode_encode_append (.jmp opA)⟩

/-- Settles O47: JEQ's two effects by the flags, the index fault, and the encoding of JEQ. -/
theorem jeqResult : Obligations.JeqResult := by
  refine fun opA s => ⟨fun a ha => ?_,
    fun h => exec_of_badOperand (Instr.badOperand_of_head rfl h) s,
    decode_encode_append (.jeq opA)⟩
  split
  · next heq => exact exec_of_effect (.jeqTaken ha heq)
  · next hne => exact exec_of_effect (.jeqFalls ha hne)

/-- Settles O48: JNE's two effects by the flags, the index fault, and the encoding of JNE. -/
theorem jneResult : Obligations.JneResult := by
  refine fun opA s => ⟨fun a ha => ?_,
    fun h => exec_of_badOperand (Instr.badOperand_of_head rfl h) s,
    decode_encode_append (.jne opA)⟩
  split
  · next heq => exact exec_of_effect (.jneFalls ha heq)
  · next hne => exact exec_of_effect (.jneTaken ha hne)

end Sys2Proof.Machine
end

section
/-! Fault entry (60_exceptions.md): the state `raise` leaves, by cause, and what the host's ports then show. -/

namespace Sys2Proof.Machine

/-- On `InvalidInstruction` fault entry moves `pc` past the opcode byte, then halts (R104, R195). -/
theorem State.raise_invalidInstruction (s : State) (op : Byte) :
    s.raise (.invalidInstruction op) = (s.advance 1).halt (.invalidInstruction op) := rfl

/-- Fault entry of every other cause is the halt alone (R195). -/
theorem State.raise_eq_halt (s : State) (c : Cause) (hc : ∀ op, c ≠ .invalidInstruction op) :
    s.raise c = s.halt c := by
  cases c with
  | invalidInstruction op => exact absurd rfl (hc op)
  | hlt | stackOverflow | unsupportedOperation | registerIndexFault _ => rfl

/-- The host sees a raised cause on the `halted` port (R47). -/
theorem haltedPort_raise (s : State) (c : Cause) : haltedPort (s.raise c) = true := by
  simp only [haltedPort, State.raise_run]

/-- A PUSH of a register on a nonzero cell ends in the fault entry of `StackOverflow` from the state it began
in (R140, R195). -/
theorem exec_push_eq_raise {s : State} {opA : Byte} {a : Fin Config.nreg} (ha : opA.toNat = a)
    (hne : s.memRead (s.sp - 1) ≠ 0) : exec (.push opA) s = .next (s.raise .stackOverflow) := by
  rw [State.raise_eq_halt s .stackOverflow nofun]
  exact exec_of_effect (.pushOverflow ha hne)

/-- Settles O30: the effect of `raise` cause by cause, the host's two ports, and PUSH's fault path. -/
theorem faultEntryEffects : Obligations.FaultEntryEffects := fun s =>
  ⟨State.raise_invalidInstruction s,
    State.raise_eq_halt s .stackOverflow nofun,
    State.raise_eq_halt s .unsupportedOperation nofun,
    fun b => State.raise_eq_halt s (.registerIndexFault b) nofun,
    fun c => ⟨haltedPort_raise s c, causePorts_raise s c⟩,
    fun _ _ ha hne => exec_push_eq_raise ha hne⟩

end Sys2Proof.Machine
end

section
/-! The reset and hazards family (70_reset_and_hazards.md), the core: the state after reset, the image the loader
writes, and the stale return address that a CALL and its RET leave on the stack. -/

namespace Sys2Proof.Machine

/-! ## Reset -/

/-- Settles O2: the empty memory is canonical, and `FL_NONE` is legal. -/
theorem resetMeetsInv : Obligations.ResetMeetsInv := ⟨State.wf_reset, .inl rfl⟩

/-- Every register is 0 after reset (R210). -/
theorem State.readReg_reset (i : Fin Config.nreg) : State.reset.readReg i = 0 := Vector.getElem_replicate i.isLt

/-- Every cell reads 0 after reset (R211). -/
theorem State.memRead_reset (e : Byte) : State.reset.memRead e = 0 := Memory.read_nil e.toNat

/-- Settles O1: the registers and the cells by their own lemmas, the other fields by definition. -/
theorem resetState : Obligations.ResetState :=
  ⟨State.readReg_reset, rfl, rfl, State.memRead_reset, rfl, rfl, rfl, rfl⟩

/-! ## The loader -/

/-- Storing bytes changes memory alone (R216). -/
theorem State.storeBytes_eq_with_mem (s : State) (a : Byte) (bytes : List Byte) :
    s.storeBytes a bytes = { s with mem := (s.storeBytes a bytes).mem } := by
  induction bytes generalizing s a with
  | nil => rfl
  | cons v _ ih => exact ih (s.memWrite a v) (a + 1)

/-- Of at most 256 bytes stored from `a` on, none overwrites another: the cell `k` places after `a` reads as byte
`k`, and every cell past the last byte as before. -/
theorem State.memRead_storeBytes (s : State) (a e : Byte) {bytes : List Byte} (hlen : bytes.length ≤ Config.memSize) :
    (s.storeBytes a bytes).memRead e = bytes.getD (e - a).toNat (s.memRead e) := by
  induction bytes generalizing s a with
  | nil => rfl
  | cons v vs ih =>
    have hvs : vs.length + 1 ≤ 256 := hlen
    have htail : ((s.memWrite a v).storeBytes (a + 1) vs).memRead e =
        vs.getD (e - (a + 1)).toNat ((s.memWrite a v).memRead e) := ih _ _ (Nat.le_of_succ_le hlen)
    refine htail.trans ?_
    by_cases he : e = a
    · have hlast : vs.length ≤ (e - (a + 1)).toNat := by bv_omega
      have hfirst : (e - a).toNat = 0 := by rw [he, BitVec.sub_self, BitVec.toNat_zero]
      rw [List.getD_eq_default _ _ hlast, hfirst, List.getD_cons_zero, he, State.memRead_memWrite_self]
    · have hnext : (e - a).toNat = (e - (a + 1)).toNat + 1 := by bv_omega
      rw [hnext, List.getD_cons_succ, State.memRead_memWrite_ne s v he]

/-- The loader's contract (R216): what it answers is the image stored from address 0, and it refuses only an image
that does not fit. -/
theorem load_eq_some_iff {image : List Byte} {s t : State} :
    load image s = some t ↔ image.length ≤ Config.memSize ∧ t = s.storeBytes 0 image := by
  simp [load, eq_comm]

theorem load_eq_none_iff {image : List Byte} {s : State} :
    load image s = none ↔ Config.memSize < image.length := by
  simp [load]

/-- Settles O21: the image stored into the reset state, whose every cell reads 0. -/
theorem launchStateOfImage : Obligations.LaunchStateOfImage := by
  refine fun image => ⟨fun hlen => ⟨_, load_eq_some_iff.2 ⟨hlen, rfl⟩,
    State.storeBytes_eq_with_mem State.reset 0 image, fun e => ?_⟩, load_eq_none_iff.2⟩
  have hcell : e - 0 = e := BitVec.sub_zero e
  rw [State.memRead_storeBytes State.reset 0 e hlen, hcell, State.memRead_reset]

/-! ## The stale return address -/

/-- RET leaves its cell just below `sp`, as it was (R152, D9). -/
theorem ret_cell_below_sp {t u : State} (h : exec .ret t = .next u) :
    u.sp - 1 = t.sp ∧ u.memRead (u.sp - 1) = t.memRead t.sp := by
  obtain rfl := Host.Outcome.next.inj ((exec_of_effect .ret).symm.trans h)
  have hsp : t.sp + 1 - 1 = t.sp := BitVec.add_sub_cancel t.sp 1
  exact ⟨hsp, congrArg t.memRead hsp⟩

/-- Settles O57: the cell that the PUSH checks is the one the CALL stored the return address in. -/
theorem staleReturnAddressBlocksPush : Obligations.StaleReturnAddressBlocksPush := by
  intro s opA opB hA hB
  have ha : opA.toNat = (⟨opA.toNat, Nat.lt_succ_of_le hA⟩ : Fin Config.nreg) := rfl
  have hb : opB.toNat = (⟨opB.toNat, Nat.lt_succ_of_le hB⟩ : Fin Config.nreg) := rfl
  have hcall := exec_of_effect (.call (s := s) ha)
  obtain ⟨u, hret, _⟩ := exec_effect .ret _
  obtain ⟨hcallSp, hcallCell⟩ := call_sp_and_cell hA hcall
  obtain ⟨hretSp, hretCell⟩ := ret_cell_below_sp hret
  have hcell : u.memRead (u.sp - 1) = s.pc + 2 := hretCell.trans hcallCell
  refine ⟨_, u, hcall, hret, fun hne => ?_, fun hz => ?_⟩
  · exact exec_of_effect (.pushOverflow hb (hcell ▸ hne))
  · refine ⟨_, exec_of_effect (.push hb (hcell.trans hz)), ?_, hretSp.trans hcallSp⟩
    exact (exec_next_iff.1 hret).run_eq_of_wf rfl nofun nofun

end Sys2Proof.Machine
end

section
/-! The reset and hazards family (70_reset_and_hazards.md), the host: what an allowed event does to the system, and
the invariant that every event keeps. -/

namespace Sys2Proof.Machine

/-- `Transition y e z`: event `e`, where it may happen, takes system `y` to `z`. A constructor for each event. -/
inductive Transition (y : System) : HostEvent → System → Prop where
  | reset (hphase : y.phase ≠ .started) : Transition y .reset System.init
  | load {image : List Byte} {s : State} (hphase : y.phase = .fresh) (hload : load image y.core = some s) :
      Transition y (.load image) { phase := .loaded, core := s }
  | run (hphase : y.phase = .fresh ∨ y.phase = .loaded) : Transition y .run { y with phase := .started }
  | step {t : State} (hphase : y.phase = .started) (hstep : step y.core = .next t) :
      Transition y .step { phase := if haltedPort t then .ended else .started, core := t }

/-- Every allowed event is one of the transitions. -/
theorem transition_of_event {y z : System} {e : HostEvent} (h : y.event e = some z) : Transition y e z := by
  obtain ⟨phase, core⟩ := y
  cases e with
  | reset =>
    cases phase with
    | started => cases h
    | fresh | loaded | ended =>
      cases h
      exact .reset nofun
  | load image =>
    cases phase with
    | fresh =>
      obtain ⟨s, hload, rfl⟩ := Option.map_eq_some_iff.1 h
      exact .load rfl hload
    | loaded | started | ended => cases h
  | run =>
    cases phase with
    | fresh =>
      cases h
      exact .run (.inl rfl)
    | loaded =>
      cases h
      exact .run (.inr rfl)
    | started | ended => cases h
  | step =>
    cases phase with
    | started =>
      cases hstep : step core with
      | next t =>
        simp only [System.event, hstep] at h
        cases h
        exact .step rfl hstep
      | fault _ | refused _ => simp [System.event, hstep] at h
    | fresh | loaded | ended => cases h

/-- The port `halted` shows exactly the halted states (R47). -/
theorem haltedPort_iff (s : State) : haltedPort s = true ↔ ∃ c, s.run = .halted c := by
  cases h : s.run <;> simp [haltedPort, h]

/-- The phase after a step of a run is `ended` exactly if the step halted the core (R106). -/
theorem phase_after_step_eq_ended_iff (t : State) :
    (if haltedPort t then HostPhase.ended else .started) = .ended ↔ ∃ c, t.run = .halted c := by
  rw [← haltedPort_iff]
  cases haltedPort t <;> simp

theorem not_halted_of_running {s : State} (h : s.run = .running) : ¬ ∃ c, s.run = .halted c := by
  rintro ⟨c, hc⟩
  rw [h] at hc
  cases hc

/-- The system after reset meets its invariant. -/
theorem systemInv_init : SystemInv System.init where
  core := resetMeetsInv
  fresh _ := rfl
  loaded := nofun
  ended := iff_of_false nofun (not_halted_of_running rfl)

/-- An image loaded over the reset state: memory stays canonical and nothing else is touched. -/
theorem systemInv_load {image : List Byte} {s : State} (hload : load image State.reset = some s) :
    SystemInv { phase := .loaded, core := s } := by
  obtain ⟨_, rfl⟩ := load_eq_some_iff.1 hload
  have hmem := State.storeBytes_eq_with_mem State.reset 0 image
  exact {
    core := ⟨State.wf_storeBytes State.wf_reset 0 image, by rw [hmem]; exact .inl rfl⟩
    fresh := nofun
    loaded := fun _ => hmem
    ended := iff_of_false nofun (not_halted_of_running (by rw [hmem]; rfl)) }

/-- Every transition keeps the system invariant: only a step moves the core outside reset and load, and the phase
follows the core's halt. -/
theorem Transition.systemInv {y z : System} {e : HostEvent} (tr : Transition y e z) (h : SystemInv y) :
    SystemInv z := by
  cases tr with
  | reset _ => exact systemInv_init
  | load hphase hload =>
    rw [h.fresh hphase] at hload
    exact systemInv_load hload
  | run hphase =>
    have hnotEnded : y.phase ≠ .ended := by rcases hphase with hp | hp <;> rw [hp] <;> nofun
    exact {
      core := h.core
      fresh := nofun
      loaded := nofun
      ended := iff_of_false nofun (mt h.ended.2 hnotEnded) }
  | @step t _ hstep =>
    exact {
      core := stepKeepsInv _ _ h.core hstep
      fresh := fun hp => by cases hh : haltedPort t <;> simp [hh] at hp
      loaded := fun hp => by cases hh : haltedPort t <;> simp [hh] at hp
      ended := phase_after_step_eq_ended_iff t }

/-- Settles O59: the system after reset, and every transition from a system that meets the invariant. -/
theorem hostEventKeepsSystemInv : Obligations.HostEventKeepsSystemInv :=
  ⟨systemInv_init, fun _ _ _ hy hevent => (transition_of_event hevent).systemInv hy⟩

/-- The invariant holds of whatever the host's events reach. -/
theorem Reachable.systemInv {y : System} (h : Reachable y) : SystemInv y := by
  induction h with
  | init => exact systemInv_init
  | event _ hevent ih => exact (transition_of_event hevent).systemInv ih

/-- Settles O20: the fields of the system invariant, which every reachable system meets. -/
theorem hostEventsKeepSystemInvariant : Obligations.HostEventsKeepSystemInvariant := fun _ hy =>
  have inv := hy.systemInv
  ⟨inv.core, inv.fresh, inv.loaded, inv.ended⟩

/-- Settles O60: in each phase, the transitions that may happen there. -/
theorem hostMayNotDisturbRun : Obligations.HostMayNotDisturbRun := by
  intro y z e hevent
  cases transition_of_event hevent with
  | reset hne => exact ⟨fun hp => absurd hp hne, fun _ => ⟨rfl, rfl⟩, fun _ => nofun⟩
  | load hphase _ =>
    rw [hphase]
    exact ⟨nofun, nofun, fun _ => nofun⟩
  | run hphase => rcases hphase with hp | hp <;> rw [hp] <;> exact ⟨nofun, nofun, fun _ => nofun⟩
  | @step t hphase hstep =>
    rw [hphase]
    exact ⟨fun _ => ⟨rfl, hstep, phase_after_step_eq_ended_iff t⟩, nofun, nofun⟩

end Sys2Proof.Machine
end

section
/-! The rest of the step's laws: when it answers a next state, the word the host places for it, the decoding of
written words, the causes the host reads, and the faults of register operands and of the ALU. -/

namespace Sys2Proof

/-- Settles O7: each word is the encoding of its instruction, byte for byte. -/
theorem decodeWrittenWords : Obligations.DecodeWrittenWords :=
  ⟨decode_eq_ok_iff.2 rfl, decode_eq_ok_iff.2 rfl, decode_eq_ok_iff.2 rfl, decode_eq_ok_iff.2 rfl,
    decode_eq_ok_iff.2 rfl, decode_eq_ok_iff.2 rfl, decode_eq_ok_iff.2 rfl, decode_eq_ok_iff.2 rfl⟩

theorem decodeTableWord_eq_some_iff {nbits w : Nat} {i : Instr} :
    decodeTableWord nbits w = some i ↔ ∃ rest, decode (tableBytes nbits w) = .ok (i, rest) := by
  unfold decodeTableWord
  split
  · next j rest h => simp [h]
  · next h => simp [h]

namespace Machine

/-! ## When a step answers a next state -/

/-- Settles O10: the step and the run of a halted state. -/
theorem haltedTakesNoStep : Obligations.HaltedTakesNoStep := fun _ _ h => ⟨step_of_halted h, runFor_of_halted h⟩

/-- A running machine executes the instruction at `pc` or halts on an unmapped opcode; either way there is a next
state. -/
theorem exists_step_of_running {s : State} (hrun : s.run = .running) : ∃ t, step s = .next t := by
  cases hl : lookupOpcode opc (s.memRead s.pc) with
  | none => exact ⟨_, step_of_unmapped hrun hl⟩
  | some m =>
    obtain ⟨i, _, hf⟩ := fetchInstr_of_mapped hl
    obtain ⟨t, ht, _⟩ := exec_effect i s
    exact ⟨t, (step_of_fetch hrun hf).trans ht⟩

/-- Settles O11: a running machine has a next state, and what has one was running. -/
theorem stepTotalExactlyWhenRunning : Obligations.StepTotalExactlyWhenRunning := fun _ =>
  ⟨exists_step_of_running, fun ⟨_, h⟩ => (step_next_cases h).1⟩

/-! ## A word placed for the next step -/

theorem State.storeBytes_pc (s : State) (a : Byte) (bytes : List Byte) : (s.storeBytes a bytes).pc = s.pc := by
  rw [State.storeBytes_eq_with_mem]

theorem State.withFetchWord_pc (s : State) (nbits w : Nat) : (s.withFetchWord nbits w).pc = s.pc :=
  State.storeBytes_pc s s.pc (tableBytes nbits w)

theorem State.memRead_withFetchWord (s : State) (nbits w : Nat) (e : Byte) :
    (s.withFetchWord nbits w).memRead e = (tableBytes nbits w).getD (e - s.pc).toNat (s.memRead e) :=
  State.memRead_storeBytes s s.pc e (show 3 ≤ 256 by omega)

/-- The three bytes from `pc` on are those of the word placed (log 18). -/
theorem State.fetchWindow_withFetchWord (s : State) (nbits w : Nat) :
    [(s.withFetchWord nbits w).memRead s.pc, (s.withFetchWord nbits w).memRead (s.pc + 1),
      (s.withFetchWord nbits w).memRead (s.pc + 2)] = tableBytes nbits w := by
  have hzero : (s.pc - s.pc).toNat = 0 := by bv_omega
  have hone : (s.pc + 1 - s.pc).toNat = 1 := by bv_omega
  have htwo : (s.pc + 2 - s.pc).toNat = 2 := by bv_omega
  simp only [State.memRead_withFetchWord, hzero, hone, htwo]
  rfl

/-- Settles O14: the placed state is running and the three bytes at its `pc` are the word's. -/
theorem fetchWordIsRun : Obligations.FetchWordIsRun := by
  intro s nbits w i hword
  obtain ⟨rest, hdec⟩ := decodeTableWord_eq_some_iff.1 hword
  rw [← State.fetchWindow_withFetchWord s] at hdec
  rw [← State.withFetchWord_pc s nbits w] at hdec
  exact stepRunsDecodedInstruction _ i rest rfl hdec

/-! ## Causes -/

/-- The cause that a code and an `info` byte on the host's ports stand for (R32, D12). -/
def Cause.ofPorts (code : BitVec 3) (info : Byte) : Cause :=
  if code = 0 then .hlt
  else if code = 1 then .invalidInstruction info
  else if code = 2 then .stackOverflow
  else if code = 3 then .unsupportedOperation
  else .registerIndexFault info

theorem Cause.ofPorts_code_info (c : Cause) : Cause.ofPorts c.code c.info = c := by cases c <;> rfl

/-- Settles O31: the host recovers every cause from its two ports. -/
theorem causePortsIdentifyCause : Obligations.CausePortsIdentifyCause := by
  refine ⟨⟨rfl, rfl, rfl, fun _ => ⟨rfl, rfl⟩, fun _ => ⟨rfl, rfl⟩⟩, fun c d hcode hinfo => ?_⟩
  calc c = Cause.ofPorts c.code c.info := c.ofPorts_code_info.symm
    _ = Cause.ofPorts d.code d.info := by rw [hcode, hinfo]
    _ = d := d.ofPorts_code_info

/-! ## Register operands and the ALU's fault -/

/-- Settles O32: the eleven check `opA` first; MUL, ADD and CMP then check the second operand. -/
theorem registerIndexFaultFirst : Obligations.RegisterIndexFaultFirst := by
  refine fun opA opB s hgt => ⟨fun i hi => ?_, fun opC hC i hi => ?_⟩
  · have hops : ∃ ops, i.regOperands = opA :: ops := by
      simp only [List.mem_cons, List.not_mem_nil, or_false] at hi
      rcases hi with rfl | rfl | rfl | rfl | rfl | rfl | rfl | rfl | rfl | rfl | rfl <;> exact ⟨_, rfl⟩
    obtain ⟨_, hops⟩ := hops
    exact exec_of_badOperand (Instr.badOperand_of_head hops hgt) s
  · have hops : i.regOperands = [opC, opA] := by
      simp only [List.mem_cons, List.not_mem_nil, or_false] at hi
      rcases hi with rfl | rfl | rfl <;> rfl
    exact exec_of_badOperand (Instr.badOperand_of_second hops hC hgt) s

/-- Each of the ALU's six operations answers (R120). -/
theorem exists_alu_eq_some {op : AluOp} (hop : op ≠ .unrecognised) (va vb : Byte) : ∃ v, alu op va vb = some v := by
  cases op with
  | unrecognised => exact absurd rfl hop
  | add | multiply | and | or | xor | not => exact ⟨_, rfl⟩

/-- A recognised operation writes its result and goes on. -/
theorem aluWrite_run {op : AluOp} (hop : op ≠ .unrecognised) (a b : Fin Config.nreg) (s : State) :
    (aluWrite op a b s).run = s.run := by
  obtain ⟨v, hv⟩ := exists_alu_eq_some hop (s.readReg a) (s.readReg b)
  rw [aluWrite, hv]
  rfl

/-- Settles O35: with two register operands an ALU instruction is its write, which faults for no operation but the
unrecognised one. -/
theorem aluUnsupportedRaises : Obligations.AluUnsupportedRaises := by
  intro opA opB s hA hB
  have hwrite (op : AluOp) :
      aluInstr op opA opB s = aluWrite op ⟨opA.toNat, Nat.lt_succ_of_le hA⟩ ⟨opB.toNat, Nat.lt_succ_of_le hB⟩ s :=
    withRegs_of_lt _ _
  exact ⟨hwrite .unrecognised, fun op hop => (congrArg State.run (hwrite op)).trans (aluWrite_run hop _ _ s)⟩

end Machine
end Sys2Proof
end

section
/-! The output trace (10_state.md section 5): PRN alone appends to it, and no instruction reads it. -/

namespace Sys2Proof.Machine

/-- An instruction leaves the trace as it was, unless it is a PRN of a register, which appends its value (R31). -/
theorem Effect.out_cases {s t : State} {i : Instr} (e : Effect s i t) :
    t.out = s.out ∨ ∃ (opA : Byte) (a : Fin Config.nreg), i = .prn opA ∧ opA.toNat = a ∧
      t = (s.emit (s.readReg a)).advance 2 := by
  cases e with
  | prn ha => exact .inr ⟨_, _, rfl, ha, rfl⟩
  | _ => exact .inl rfl

/-- Where an instruction appends nothing, the trace is carried along unread. -/
theorem Effect.with_out {s t : State} {i : Instr} (e : Effect s i t) (o : List Byte) (h : t.out = s.out) :
    Effect { s with out := o } i { t with out := o } := by
  cases e with
  | ldi ha => exact .ldi ha
  | prn _ => simp at h
  | mul ha hb => exact .mul ha hb
  | add ha hb => exact .add ha hb
  | push ha hz => exact .push ha hz
  | pushOverflow ha hne => exact .pushOverflow ha hne
  | pop ha => exact .pop ha
  | call ha => exact .call ha
  | ret => exact .ret
  | cmp ha hb => exact .cmp ha hb
  | jmp ha => exact .jmp ha
  | jeqTaken ha heq => exact .jeqTaken ha heq
  | jeqFalls ha hne => exact .jeqFalls ha hne
  | jneTaken ha hne => exact .jneTaken ha hne
  | jneFalls ha heq => exact .jneFalls ha heq
  | hlt => exact .hlt
  | indexFault hb => exact .indexFault hb

/-- Settles O27: the new values are none, or the one register value of a PRN. -/
theorem onlyPrnAppendsToOut : Obligations.OnlyPrnAppendsToOut := by
  intro i s t h
  have e := exec_next_iff.1 h
  rcases e.out_cases with hout | ⟨opA, a, rfl, ha, rfl⟩
  · refine ⟨[], by simp [hout], Nat.zero_le 1, fun _ => rfl, fun o => ?_⟩
    rw [List.append_nil]
    exact exec_of_effect (e.with_out o hout)
  · exact ⟨[s.readReg a], rfl, Nat.le_refl 1, fun hprn => absurd rfl hprn, fun _ => exec_of_effect (.prn ha)⟩

/-- What a step does to the trace (R31): nothing, unless the bytes at `pc` are a PRN of a register. -/
theorem step_out_cases {s t : State} (h : step s = .next t) :
    t.out = s.out ∨ ∃ a : Fin Config.nreg, s.memRead s.pc = opc .prn ∧ (s.memRead (s.pc + 1)).toNat = a ∧
      t.out = s.out ++ [s.readReg a] := by
  obtain ⟨_, ⟨i, rest, hf, hexec⟩ | ⟨_, rfl⟩⟩ := step_next_cases h
  · rcases (exec_next_iff.1 hexec).out_cases with hout | ⟨opA, a, rfl, ha, rfl⟩
    · exact .inl hout
    · obtain ⟨hop, hoperand⟩ := fetchInstr_bytes hf
      obtain rfl := List.head_eq_of_cons_eq hoperand
      exact .inr ⟨a, hop.symm, ha, rfl⟩
  · exact .inl (State.raise_out s _)

/-- The output port shows the value past the end of the old trace, if the step put one there (R47). -/
theorem outPort_of_step {s t : State} (h : step s = .next t) : outPort s = t.out[s.out.length]? := by
  rw [outPort, h]

/-- Settles O28: the two cases of the step's trace, read at the old trace's end. -/
theorem outIsTraceOfOutputPort : Obligations.OutIsTraceOfOutputPort := by
  intro s t hstep
  rcases step_out_cases hstep with hout | ⟨a, hop, ha, hout⟩
  · have hport : outPort s = none := by simp [outPort_of_step hstep, hout]
    simp [hport, hout]
  · have hport : outPort s = some (s.readReg a) := by simp [outPort_of_step hstep, hout]
    refine ⟨by simp [hport, hout], fun v hv => ⟨hop, a, ha, ?_⟩⟩
    exact Option.some.inj (hv.symm.trans hport)

end Sys2Proof.Machine
end

section
/-! Memory beyond one store (20_memory.md): the canonical form is unique, and a step's access list is exact. -/

namespace Sys2Proof.Machine

/-! ## The canonical form is unique -/

/-- A cell that does not read as its reset value is listed. -/
theorem Memory.mem_of_read_ne {m : Memory} {a : Nat} (h : Memory.read m a ≠ Config.memReset) :
    (a, Memory.read m a) ∈ m := by
  induction m with
  | nil => exact absurd rfl h
  | cons c m ih =>
    obtain ⟨b, w⟩ := c
    by_cases hab : a = b
    · simp [Memory.read, hab]
    · rw [Memory.read, if_neg hab] at h ⊢
      exact List.mem_cons_of_mem _ (ih h)

/-- Where addresses strictly rise, a listed cell reads as its entry: no earlier entry has its address. -/
theorem Memory.read_of_mem {m : Memory} (hm : m.Pairwise fun c d => c.1 < d.1) {a : Nat} {v : Byte}
    (h : (a, v) ∈ m) : Memory.read m a = v := by
  induction m with
  | nil => cases h
  | cons c m ih =>
    obtain ⟨b, w⟩ := c
    obtain ⟨hfirst, htail⟩ := List.pairwise_cons.1 hm
    rcases List.mem_cons.1 h with heq | hmem
    · cases heq
      simp [Memory.read]
    · have hne : a ≠ b := (hfirst _ hmem).ne'
      rw [Memory.read, if_neg hne, ih htail hmem]

/-- A canonical memory lists exactly the cells that do not read as their reset value. -/
theorem Memory.mem_iff_of_wf {m : Memory} (hm : Memory.wf m) {a : Nat} {v : Byte} :
    (a, v) ∈ m ↔ Memory.read m a = v ∧ v ≠ Config.memReset := by
  obtain ⟨hsorted, hcells⟩ := hm
  refine ⟨fun h => ⟨Memory.read_of_mem hsorted h, (hcells _ h).2⟩, ?_⟩
  rintro ⟨rfl, hne⟩
  exact Memory.mem_of_read_ne hne

/-- Settles O23: two lists in strictly rising order with the same entries are the same list. -/
theorem canonicalMemoryIsUnique : Obligations.CanonicalMemoryIsUnique := by
  intro m n hm hn hread
  have : Std.Irrefl fun c d : Host.Cell => c.1 < d.1 := ⟨fun c => Nat.lt_irrefl c.1⟩
  have : Std.Antisymm fun c d : Host.Cell => c.1 < d.1 := ⟨fun _ _ h h' => absurd h' (Nat.lt_asymm h)⟩
  exact hm.1.eq_of_mem_iff hn.1 fun ⟨a, v⟩ => by rw [Memory.mem_iff_of_wf hm, Memory.mem_iff_of_wf hn, hread a]

/-! ## The accesses of a step -/

/-- `m` holds what `s` holds in every cell that a list of accesses reads. -/
def AgreesOnReads (m : Memory) (s : State) (as : List Access) : Prop :=
  ∀ e : Byte, .read e ∈ as → Memory.read m e.toNat = s.memRead e

/-- Reading an instruction's bytes writes nothing. -/
theorem replay_readsFrom_append (m : Memory) (p : Byte) (n : Nat) (as : List Access) :
    replay m (readsFrom p n ++ as) = replay m as := by
  induction n generalizing p with
  | zero => rfl
  | succ n ih => exact ih (p + 1)

/-- Reading `n` bytes from `p` on reads each of the `n` addresses. -/
theorem mem_readsFrom {p : Byte} {n k : Nat} (h : k < n) : .read (p + trunc8 k) ∈ readsFrom p n := by
  induction n generalizing p k with
  | zero => cases h
  | succ n ih =>
    cases k with
    | zero => simp [readsFrom, trunc8]
    | succ k =>
      have hsplit : trunc8 (k + 1) = 1 + trunc8 k := by
        rw [Nat.add_comm]
        exact BitVec.ofNat_add 1 k
      rw [hsplit, ← BitVec.add_assoc]
      exact List.mem_cons_of_mem _ (ih (Nat.lt_of_succ_lt_succ h))

theorem stepAccesses_of_fetch {s : State} {i : Instr} {rest : List Byte} (hrun : s.run = .running)
    (hf : fetchInstr s = .ok (i, rest)) :
    stepAccesses s = readsFrom s.pc (instrLength i.mnemonic) ++ dataAccesses i s := by
  simp only [stepAccesses, hrun, hf]

theorem dataAccesses_push {s : State} {opA : Byte} {a : Fin Config.nreg} (ha : opA.toNat = a) :
    dataAccesses (.push opA) s = pushAccesses true (s.readReg a) s := by
  have hreg : regIndex opA = some a := (regIndex_eq_some (ha ▸ a.isLt)).trans (congrArg some (Fin.ext ha))
  simp only [dataAccesses, hreg]

theorem dataAccesses_pop {s : State} {opA : Byte} {a : Fin Config.nreg} (ha : opA.toNat = a) :
    dataAccesses (.pop opA) s = [.read s.sp, .write s.sp 0] :=
  if_pos ((regByteOk_iff opA).2 (ha ▸ a.isLt))

theorem dataAccesses_call {s : State} {opA : Byte} {a : Fin Config.nreg} (ha : opA.toNat = a) :
    dataAccesses (.call opA) s = [.write (s.sp - 1) (s.pc + 2)] :=
  if_pos ((regByteOk_iff opA).2 (ha ▸ a.isLt))

/-- A register operand that faults is found before any access (R73). -/
theorem dataAccesses_of_badOperand {s : State} {i : Instr} {b : Byte} (hb : i.badOperand = some b) :
    dataAccesses i s = [] := by
  have hwf : i.wf = false := by
    rw [← Bool.not_eq_true, ← Instr.badOperand_eq_none_iff, hb]
    nofun
  cases i with
  | push opA => simp only [dataAccesses, regIndex_eq_none ((regByteOk_eq_false_iff opA).1 hwf)]
  | pop opA | call opA => exact if_neg (ne_true_of_eq_false hwf)
  | ret => cases hwf
  | _ => rfl

/-- An instruction over any other memory that agrees on the cells its own accesses read has the same effect, its
writes made to the other memory. -/
theorem Effect.with_mem {s t : State} {i : Instr} (e : Effect s i t) {m : Memory}
    (hm : AgreesOnReads m s (dataAccesses i s)) :
    Effect { s with mem := m } i { t with mem := replay m (dataAccesses i s) } := by
  cases e with
  | ldi ha => exact .ldi ha
  | prn ha => exact .prn ha
  | mul ha hb => exact .mul ha hb
  | add ha hb => exact .add ha hb
  | push ha hz =>
    have hacc : dataAccesses _ s = _ := (dataAccesses_push ha).trans (if_pos hz)
    rw [hacc] at hm ⊢
    exact .push ha ((hm _ (by simp)).trans hz)
  | pushOverflow ha hne =>
    have hacc : dataAccesses _ s = _ := (dataAccesses_push ha).trans (if_neg hne)
    rw [hacc] at hm ⊢
    exact .pushOverflow ha fun hz => hne ((hm _ (by simp)).symm.trans hz)
  | pop ha =>
    rw [dataAccesses_pop ha] at hm ⊢
    rw [← hm s.sp (by simp)]
    exact .pop ha
  | call ha =>
    rw [dataAccesses_call ha]
    exact .call ha
  | ret =>
    rw [← hm s.sp (List.mem_singleton.2 rfl)]
    exact .ret
  | cmp ha hb => exact .cmp ha hb
  | jmp ha => exact .jmp ha
  | jeqTaken ha heq => exact .jeqTaken ha heq
  | jeqFalls ha hne => exact .jeqFalls ha hne
  | jneTaken ha hne => exact .jneTaken ha hne
  | jneFalls ha heq => exact .jneFalls ha heq
  | hlt => exact .hlt
  | indexFault hb =>
    rw [dataAccesses_of_badOperand hb]
    exact .indexFault hb

/-- The fetch delivers the instruction whose opcode byte and operand bytes stand at `pc`. -/
theorem fetchInstr_of_bytes {s : State} {i : Instr} (hop : opc i.mnemonic = s.memRead s.pc)
    (hoperands : operandBytes i =
      [s.memRead (s.pc + 1), s.memRead (s.pc + 2)].take (operandCount i.mnemonic)) :
    fetchInstr s = .ok (i, []) := by
  have hbytes : fetchBytes s = encode i := by
    rw [fetchBytes_of_mapped (hop ▸ lookupOpcode_opc i.mnemonic), ← hoperands, ← hop]
    rfl
  rw [fetchInstr, hbytes, decode_eq_ok_iff, List.append_nil]

/-- The fetch depends on no cell but those of the instruction it delivers (R102, D24). -/
theorem fetchInstr_with_mem {s : State} {i : Instr} {rest : List Byte} (hf : fetchInstr s = .ok (i, rest))
    {m : Memory} (hm : AgreesOnReads m s (readsFrom s.pc (instrLength i.mnemonic))) :
    fetchInstr { s with mem := m } = .ok (i, []) := by
  obtain ⟨hop, hoperands⟩ := fetchInstr_bytes hf
  have hbyte (k : Nat) (hk : k < 1 + operandCount i.mnemonic) :
      State.memRead { s with mem := m } (s.pc + trunc8 k) = s.memRead (s.pc + trunc8 k) :=
    hm _ (mem_readsFrom hk)
  have hzero : s.pc + trunc8 0 = s.pc := BitVec.add_zero s.pc
  have hfirst := hbyte 0 (by omega)
  rw [hzero] at hfirst
  refine fetchInstr_of_bytes (hop.trans hfirst.symm) (hoperands.trans ?_)
  rcases hn : operandCount i.mnemonic with _ | _ | n
  · rfl
  · exact congrArg (fun b => [b]) (hbyte 1 (by omega)).symm
  · exact congrArg₂ (fun b c => [b, c].take (n + 2)) (hbyte 1 (by omega)).symm (hbyte 2 (by omega)).symm

/-- Settles O19: the fetch reads its own bytes only, and the instruction fetched its own accesses. -/
theorem stepReadsOnlyItsAccesses : Obligations.StepReadsOnlyItsAccesses := by
  intro s t m hstep hm
  obtain ⟨hrun, ⟨i, rest, hf, hexec⟩ | ⟨hunmapped, rfl⟩⟩ := step_next_cases hstep
  · rw [stepAccesses_of_fetch hrun hf] at hm ⊢
    have hfetch := fetchInstr_with_mem hf fun e he => hm e (List.mem_append_left _ he)
    rw [step_of_fetch (s := { s with mem := m }) hrun hfetch, replay_readsFrom_append]
    exact exec_of_effect ((exec_next_iff.1 hexec).with_mem fun e he => hm e (List.mem_append_right _ he))
  · rw [stepAccesses_of_unmapped hrun hunmapped] at hm ⊢
    have hop : State.memRead { s with mem := m } s.pc = s.memRead s.pc := hm s.pc (List.mem_singleton.2 rfl)
    rw [step_of_unmapped (s := { s with mem := m }) hrun ((congrArg _ hop).trans hunmapped), hop]
    rfl

/-- Settles O18: over its own memory a step that reads only its accesses is the step itself. -/
theorem memoryIsReplayOfAccesses : Obligations.MemoryIsReplayOfAccesses := by
  intro s t hstep
  have hsame : step s = .next { t with mem := replay s.mem (stepAccesses s) } :=
    stepReadsOnlyItsAccesses s t s.mem hstep fun _ _ => rfl
  exact congrArg State.mem (Host.Outcome.next.inj (hstep.symm.trans hsame))

end Sys2Proof.Machine
end

section
/-! The machine built from the sub-blocks (10_state.md rules R40 to R46) is the machine of the step rule: each
block's output on the control signals of an instruction, then the data path as a whole against `Effect`. -/

namespace Sys2Proof.Machine

/-! ## The blocks on an instruction's own signals -/

/-- The byte on operand wire `k` while an instruction executes: 0 where it has no such operand. -/
def operandWire (i : Instr) (k : Nat) : Byte := (operandBytes i).getD k 0

/-- The decoder's length output is the instruction's length (R42). -/
theorem controlOf_length (m : Mnemonic) : (controlOf m).length = instrLength m := by cases m <;> rfl

/-- The decoder's register check finds the operand byte that faults (R42, R73). -/
theorem indexFault_controlOf (i : Instr) :
    indexFault (controlOf i.mnemonic) (operandWire i 0) (operandWire i 1) = i.badOperand := by
  cases i with
  | ret | hlt => rfl
  | ldi a _ | prn a | push a | pop a | call a | jmp a | jeq a | jne a =>
    cases h : regByteOk a <;>
      simp [indexFault, controlOf, Instr.mnemonic, operandWire, operandBytes, Instr.badOperand, Instr.regOperands, h]
  | mul a b | add a b | cmp a b =>
    cases ha : regByteOk a <;> cases hb : regByteOk b <;>
      simp [indexFault, controlOf, Instr.mnemonic, operandWire, operandBytes, Instr.badOperand, Instr.regOperands, ha,
        hb]

/-- The fetch unit's operand wires carry the operand bytes of the instruction fetched (R41). -/
theorem fetchOperand_of_fetch {s : State} {i : Instr} {rest : List Byte} (hf : fetchInstr s = .ok (i, rest)) :
    fetchOperand s.mem s.pc (controlOf i.mnemonic).length 1 = operandWire i 0 ∧
      fetchOperand s.mem s.pc (controlOf i.mnemonic).length 2 = operandWire i 1 := by
  obtain ⟨_, hoperands⟩ := fetchInstr_bytes hf
  rw [operandWire, operandWire, hoperands, controlOf_length, instrLength]
  cases i.mnemonic <;> exact ⟨rfl, rfl⟩

/-- The low three bits of an operand byte that names a register are the register's index. -/
theorem toNat_setWidth_of_eq {b : Byte} {a : Fin Config.nreg} (ha : b.toNat = a) : (b.setWidth 3).toNat = a := by
  rw [BitVec.toNat_setWidth, ha]
  exact Nat.mod_eq_of_lt a.isLt

theorem readPort_of_eq {s : State} {b : Byte} {a : Fin Config.nreg} (ha : b.toNat = a) :
    readPort s.x (b.setWidth 3) = s.readReg a := by
  simp only [readPort, toNat_setWidth_of_eq ha]
  rfl

theorem writePort_of_eq {s : State} {b : Byte} {a : Fin Config.nreg} (ha : b.toNat = a) (data : Option Byte) :
    writePort s.x (b.setWidth 3) data = data.elim s.x fun v => (s.writeReg a v).x := by
  cases data with
  | none => rfl
  | some v =>
    simp only [writePort, toNat_setWidth_of_eq ha]
    rfl

/-- PUSH's cell check passes on a zero cell alone (R46, R140). -/
theorem stackOverflows_push (w : Byte) : stackOverflows (controlOf .push) w = true ↔ w ≠ 0 := by
  simp [stackOverflows, controlOf]

/-- The `pc` source of JEQ (R45, R163). -/
theorem pcNext_jeq (pc va w : Byte) (fl : FlagBits) :
    pcNext (controlOf .jeq) pc va w fl = if fl = flEq then va else pc + trunc8 2 := by
  simp only [pcNext, controlOf, isEqual_iff]

/-- The `pc` source of JNE (R45, R164). -/
theorem pcNext_jne (pc va w : Byte) (fl : FlagBits) :
    pcNext (controlOf .jne) pc va w fl = if fl = flEq then pc + trunc8 2 else va := by
  simp only [pcNext, controlOf, isEqual_iff]

/-! ## The data path -/

/-- On the signals of an instruction and its operand bytes, the data path leads to the instruction's effect. The
blocks' signals are constants of each case, so only the register ports, PUSH's check and the sources of `pc` that
depend on the flags are rewritten. -/
theorem blockExec_of_effect {s t : State} {i : Instr} (e : Effect s i t) :
    blockExec (controlOf i.mnemonic) (operandWire i 0) (operandWire i 1) s = t := by
  rcases e.wf_or_indexFault with hwf | ⟨b, hb, rfl⟩
  · have hfault := (indexFault_controlOf i).trans ((Instr.badOperand_eq_none_iff i).2 hwf)
    rw [blockExec, hfault]
    cases e with
    | ldi ha | prn ha | pop ha | call ha | jmp ha =>
      simp only [operandWire, operandBytes, List.getD_cons_zero, readPort_of_eq ha, writePort_of_eq ha]
      rfl
    | mul ha hb | add ha hb | cmp ha hb =>
      simp only [operandWire, operandBytes, List.getD_cons_zero, List.getD_cons_succ, readPort_of_eq ha,
        readPort_of_eq hb, writePort_of_eq ha]
      rfl
    | push ha hz =>
      refine (if_neg (mt (stackOverflows_push _).1 (not_not.2 hz))).trans ?_
      simp only [operandWire, operandBytes, List.getD_cons_zero, readPort_of_eq ha]
      rfl
    | pushOverflow ha hne => exact if_pos ((stackOverflows_push _).2 hne)
    | jeqTaken ha heq | jneFalls ha heq =>
      simp only [operandWire, operandBytes, List.getD_cons_zero, readPort_of_eq ha, Instr.mnemonic, pcNext_jeq,
        pcNext_jne, if_pos heq]
      rfl
    | jeqFalls ha hne | jneTaken ha hne =>
      simp only [operandWire, operandBytes, List.getD_cons_zero, readPort_of_eq ha, Instr.mnemonic, pcNext_jeq,
        pcNext_jne, if_neg hne]
      rfl
    | ret | hlt => rfl
    | indexFault hb =>
      rw [(Instr.badOperand_eq_none_iff _).2 hwf] at hb
      cases hb
  · have hfault := (indexFault_controlOf i).trans hb
    rw [blockExec, hfault]
    rfl

/-- Settles O17: a halted machine, an unmapped opcode byte, and the data path of a mapped one. -/
theorem blocksRefineStep : Obligations.BlocksRefineStep := by
  intro s
  cases hrun : s.run with
  | halted c => rw [step_of_halted hrun, blockStep, hrun]
  | running =>
    cases hl : lookupOpcode opc (s.memRead s.pc) with
    | none =>
      have hdec : decoderBlock (fetchOpcode s.mem s.pc) = none := congrArg (Option.map controlOf) hl
      simp only [step_of_unmapped hrun hl, blockStep, hrun, hdec]
      rfl
    | some m =>
      obtain ⟨i, _, hf⟩ := fetchInstr_of_mapped hl
      obtain ⟨t, ht, e⟩ := exec_effect i s
      have hdec : decoderBlock (fetchOpcode s.mem s.pc) = some (controlOf i.mnemonic) := by
        rw [fetchOpcode, ← State.memRead, ← (fetchInstr_bytes hf).1, decoderBlock, lookupOpcode_opc]
        rfl
      obtain ⟨hA, hB⟩ := fetchOperand_of_fetch hf
      simp only [step_of_fetch hrun hf, ht, blockStep, hrun, hdec, hA, hB, blockExec_of_effect e]

end Sys2Proof.Machine
end
